-- ==== Sys2Proof/Word.lean ====
section
/-! DEFINITION. The word types of the block and nothing else: a packed pixel and a `GAMMA` pattern are 32 bits
(spec/30_encoding.md rule R29), a channel code is 8 bits (spec/41_rgba_unpack.md rule R47), an input bundle is 67 bits
(spec/30_encoding.md rule R27), an output bundle is 33 bits (rule R28). Every word is unsigned and bit 0 is its least significant
bit (spec/00_scope.md rule R8). -/

namespace Sys2Proof

/-- A 32-bit word: a packed pixel of format `PX32`, `0xAABBGGRR` (spec/30_encoding.md rule R29). -/
abbrev Word := BitVec 32

/-- An 8-bit channel code, unsigned, 0 to 255 (spec/00_scope.md rule R11; spec/41_rgba_unpack.md rule R47). -/
abbrev Code := BitVec 8

/-- A binary32 pattern, the form in which every floating-point value is carried (spec/00_scope.md rule R10). -/
abbrev B32 := BitVec 32

/-- The input bundle `IB67`: the values of all input ports in one clock cycle (spec/30_encoding.md rule R27). -/
abbrev Bundle := BitVec 67

/-- The output bundle `OB33`: the values of the two output ports in one clock cycle (spec/30_encoding.md rule R28). -/
abbrev OutBundle := BitVec 33

end Sys2Proof
end

