-- ==== Sys2Proof/Syntax.lean ====
section
/-! DEFINITION. The five operations of the block (spec/30_encoding.md rule R30; spec/opcode_table.json), whole, and the
trace syntax of spec/30_encoding.md rule R34 as a data type. -/

namespace Sys2Proof

/-- What one input bundle asks of the block: one constructor per row of spec/opcode_table.json, with the operands the row uses
and no others. A field that a row ignores is no operand: a bundle that differs from another only in ignored bits is the same
operation (spec/30_encoding.md rule R30, spec/92_eei_decisions.md D27). -/
inductive Instr where
  /-- `RESET`: `rst = 1`, everything else ignored (spec/40_interface_ops.md rule R36). -/
  | reset
  /-- `NOP`: no strobe is set (rule R37). -/
  | nop
  /-- `APPLY p`: the pixel `p = pixel_in` is accepted (rule R38). -/
  | apply (p : Word)
  /-- `SETGAMMA g`: `g = cfg_wdata` is written to `GAMMA` (rule R39). -/
  | setgamma (g : B32)
  /-- `APPLY_SETGAMMA p, g`: both in one cycle, the pixel first (rule R40). -/
  | applySetgamma (p : Word) (g : B32)
  deriving DecidableEq, Repr

/-- One line of a trace (spec/30_encoding.md rule R34): the five lines that are one bundle each, then the five pseudo-operations.
The decimal of `SETGAMMAF` is the number `digits / 10 ^ places`, with a minus sign before it when `neg`; the codes of
`APPLYRGBA` are numbers as written, checked by `TraceLine.wellFormed`. -/
inductive TraceLine where
  | reset
  | nop
  | apply (p : Word)
  | setgamma (g : B32)
  | applySetgamma (p : Word) (g : B32)
  /-- `DRAIN`: as many `NOP` lines as the latency. -/
  | drain
  /-- `NOP n`: `n` lines `NOP`. -/
  | nops (n : Nat)
  /-- `SETGAMMAF <decimal>`. -/
  | setgammaf (neg : Bool) (digits places : Nat)
  /-- `APPLYRGBA r, g, b, a`. -/
  | applyrgba (r g b a : Nat)
  /-- `PASS <g>; <px1> ... <pxn>`: one processing pass. -/
  | pass (g : B32) (pixels : List Word)
  deriving DecidableEq, Repr

end Sys2Proof
end

