-- ==== Sys2Proof/WellFormed.lean ====
section
/-! DEFINITION. Which words are input bundles, which operations and which trace lines are well formed. The operations have no
ill-formed operand: all pixels and all gamma patterns are legal (spec/30_encoding.md rule R31). -/

namespace Sys2Proof

/-- A number is an input bundle when the 67 wires of the input ports can carry it (spec/30_encoding.md rules R27, R33). -/
def wellFormedWord (w : Nat) : Bool := w < 2 ^ 67

/-- Every operation with every operand is well formed: "All 2^32 pixel patterns and all 2^32 gamma patterns are legal operands"
(spec/30_encoding.md rule R31). One arm per operation, so that an operation added later must say what it checks. -/
def Instr.wellFormed : Instr → Bool
  | .reset => true
  | .nop => true
  | .apply _ => true
  | .setgamma _ => true
  | .applySetgamma _ _ => true

/-- The one check of the trace syntax: each operand of `APPLYRGBA` is "a code 0 to 255" (spec/30_encoding.md rule R34). -/
def TraceLine.wellFormed : TraceLine → Bool
  | .applyrgba r g b a => r < 256 && g < 256 && b < 256 && a < 256
  | .reset | .nop | .apply _ | .setgamma _ | .applySetgamma _ _ | .drain | .nops _ | .setgammaf _ _ _ | .pass _ _ => true

end Sys2Proof
end

