-- ==== Sys2Proof/Decode.lean ====
section
/-! DEFINITION. The decoder and the encoder of input bundles, both written from spec/30_encoding.md rules R27 and R30 (the
machine-readable copy is spec/opcode_table.json). The decoder is total on bundles: "All 2^67 input bundles are legal and every one
is one of the five operations" (rule R31). A number too wide for the ports is no bundle and is rejected by name. -/

namespace Sys2Proof

/-- Why a number is not decoded. -/
inductive DecodeError where
  /-- A bit above bit 66 is set: the input ports have 67 wires (spec/30_encoding.md rule R27). -/
  | widerThanBundle
  deriving DecidableEq, Repr

/-- `rst` = `IB67[66]` (spec/30_encoding.md rule R27). -/
def rstOf (b : Bundle) : Bool := b.getLsbD 66

/-- `cfg_we` = `IB67[65]` (rule R27). -/
def cfgWeOf (b : Bundle) : Bool := b.getLsbD 65

/-- `in_valid` = `IB67[64]` (rule R27). -/
def inValidOf (b : Bundle) : Bool := b.getLsbD 64

/-- `cfg_wdata` = `IB67[63:32]`, taken verbatim (rules R27, R32). -/
def cfgWdataOf (b : Bundle) : B32 := b.extractLsb' 32 32

/-- `pixel_in` = `IB67[31:0]`, taken verbatim (rules R27, R32). -/
def pixelInOf (b : Bundle) : Word := b.extractLsb' 0 32

/-- The operation map of spec/30_encoding.md rule R30: the three control bits select the operation. -/
def decode (b : Bundle) : Instr :=
  match rstOf b, cfgWeOf b, inValidOf b with
  | true, _, _ => .reset
  | false, false, false => .nop
  | false, false, true => .apply (pixelInOf b)
  | false, true, false => .setgamma (cfgWdataOf b)
  | false, true, true => .applySetgamma (pixelInOf b) (cfgWdataOf b)

/-- Decoding a number: its bits are the bundle's, bit 0 first; wider numbers are rejected by name. -/
def decodeWord (w : Nat) : Except DecodeError Instr :=
  if wellFormedWord w then .ok (decode (BitVec.ofNat 67 w)) else .error .widerThanBundle

/-- The instruction the decoder reads from `w`, an operation's bits numbered as spec/opcode_table.json numbers them; the bits
from `nbits` on are 0. -/
def decodeTableWord (nbits w : Nat) : Option Instr := (decodeWord (w % 2 ^ nbits)).toOption

/-- The bundle with the given control bits `{rst, cfg_we, in_valid}`, `cfg_wdata` and `pixel_in`
(spec/30_encoding.md rule R27; spec/92_eei_decisions.md D19). -/
def bundle (ctl : BitVec 3) (g : B32) (p : Word) : Bundle := ctl ++ g ++ p

/-- The canonical bundle of an operation: every ignored bit 0 (spec/30_encoding.md rule R30). -/
def encode : Instr → Bundle
  | .reset => bundle 0b100#3 0#32 0#32
  | .nop => bundle 0b000#3 0#32 0#32
  | .apply p => bundle 0b001#3 0#32 p
  | .setgamma g => bundle 0b010#3 g 0#32
  | .applySetgamma p g => bundle 0b011#3 g p

/-- The pixel a bundle's operation has accepted, if it accepts one (spec/40_interface_ops.md rules R38, R40). -/
def Instr.pixel? : Instr → Option Word
  | .apply p => some p
  | .applySetgamma p _ => some p
  | .reset | .nop | .setgamma _ => none

/-- The value an operation writes to `GAMMA`, if it writes one (spec/40_interface_ops.md rules R39, R40). -/
def Instr.gamma? : Instr → Option B32
  | .setgamma g => some g
  | .applySetgamma _ g => some g
  | .reset | .nop | .apply _ => none

end Sys2Proof
end

