-- ==== Sys2Proof/Machine/Flags.lean ====
section
/-! DEFINITION. The block has no flags: "No carry, overflow, zero or sign flag; no floating-point exception flags"
(spec/10_state.md rule R16), so no operation computes one and State holds none. What this file holds in their place is the
classification of binary32 patterns (spec/00_scope.md rule R10), which the stage rules branch on where other hardware
would raise a flag (spec/60_exceptions.md rule R67), and the named constants. -/

namespace Sys2Proof.Machine

/-- `P_ZERO`, +0.0 (spec/00_scope.md rule R10). -/
def pZero : B32 := 0x00000000#32
/-- `N_ZERO`, -0.0. -/
def nZero : B32 := 0x80000000#32
/-- `ONE`, 1.0. -/
def one : B32 := 0x3F800000#32
/-- `F255`, 255.0. -/
def f255 : B32 := 0x437F0000#32
/-- `P_INF`. -/
def pInf : B32 := 0x7F800000#32
/-- `N_INF`. -/
def nInf : B32 := 0xFF800000#32
/-- `QNAN`, the canonical quiet NaN. -/
def qNaN : B32 := 0x7FC00000#32

/-- `sign(b)` = `b[31]` (spec/00_scope.md rule R10). -/
def sign (b : B32) : Bool := b.getLsbD 31

/-- The biased exponent `b[30:23]`. -/
def biasedExp (b : B32) : BitVec 8 := b.extractLsb' 23 8

/-- The fraction `b[22:0]`. -/
def fraction (b : B32) : BitVec 23 := b.extractLsb' 0 23

/-- `isNaN(b)`. -/
def isNaN (b : B32) : Bool := biasedExp b == 255#8 && fraction b != 0#23

/-- `isInf(b)`. -/
def isInf (b : B32) : Bool := biasedExp b == 255#8 && fraction b == 0#23

/-- `isZero(b)`: both zeros. -/
def isZero (b : B32) : Bool := b.extractLsb' 0 31 == 0#31

/-- `isSubnormal(b)`. -/
def isSubnormal (b : B32) : Bool := biasedExp b == 0#8 && fraction b != 0#23

/-- A finite pattern, one that has a value `val(b)`. -/
def isFinite (b : B32) : Bool := biasedExp b != 255#8

end Sys2Proof.Machine
end

