-- ==== Sys2Proof/Machine/Clamp.lean ====
section
/-! DEFINITION. Stage 4, `clamp_unit` (spec/44_clamp_unit.md). -/

namespace Sys2Proof.Machine

/-- `CLAMP(v)`, the first case that matches (spec/44_clamp_unit.md rule R60): a NaN, a negative number and either zero give +0.0,
a value of 1.0 and above gives 1.0, any other comes back bit for bit. -/
def clamp (v : B32) : B32 :=
  if isNaN v then pZero
  else if sign v then pZero
  else if isZero v then pZero
  else if one ≤ v then one
  else v

end Sys2Proof.Machine
end

