-- ==== Sys2Proof/Config.lean ====
section
/-! DEFINITION. What an implementation fixes, and the free values: constants without a body, one for every value the spec
calls unspecified (spec/93_implementation_defined.md U1, U2, U3, U8) and for the bundles that the host presents
(spec/00_scope.md rule R6). Nothing in Lean can evaluate them, so whatever is proved holds for every value they may have. -/

namespace Sys2Proof

/-- `LATENCY` of the reference structure, one cycle per named stage (spec/00_scope.md rule R7; spec/10_state.md rule R13).
The parameter itself is open: Machine/AnyLatency.lean gives the block for every `LATENCY >= 1`. (notes/assumptions/2.md,
DESIGN CHOICE: the reference value.) -/
def Config.latency : Nat := 5

/-- The state elements and outputs whose value the spec leaves unspecified, each under a name of its own: `GAMMA` after a
`RESET` (U1), `pixel_out` while `out_valid = 0` (U2), the data fields of the slots after a `RESET` and the fields of slot 1
after a cycle that accepted no pixel (U3). The four codes of slot 1 together are one packed pixel. -/
inductive Config.OpenPoint where
  | gammaAfterReset
  | pixelOutIdle
  | s1Codes | s1Gm
  | s2R | s2G | s2B | s2A | s2Gm
  | s3R | s3G | s3B | s3A
  | s4R | s4G | s4B | s4A
  | s5Px
  deriving DecidableEq, Repr

/-- FREE VALUE (notes/assumptions/3.md): the pattern found at an unspecified point in a given clock cycle. Each
cycle has its own, so each `RESET` draws anew (spec/93_implementation_defined.md U1, U2, U3). -/
opaque Config.openWord : Config.OpenPoint → Nat → BitVec 32

/-- FREE VALUE (notes/assumptions/4.md): what `fp_power_unit` gives for a base outside the 256 normalised codes
(spec/93_implementation_defined.md U8; spec/43_fp_power_unit.md rule R51). -/
opaque Config.powOutsideX : B32 → B32 → B32

/-- FREE VALUE (notes/assumptions/5.md): the bundle on the input ports in a given clock cycle, when the state lists
none. The host decides it alone (spec/00_scope.md rule R6; spec/40_interface_ops.md rule R83). -/
opaque Config.hostBundle : Nat → Bundle

end Sys2Proof
end

