-- ==== Sys2Proof/Machine/State.lean ====
section
/-! DEFINITION. The state of the block (spec/10_state.md rules R12, R13, R17), its reset, and the reasons for which a step
could stop. `GAMMA`, the five valid bits and the data parts `S1` to `S5` of the reference structure are the complete state; the
last two fields are the model's own and stand for the host and for the free values. The block has no general register, no program
counter, no flag, no memory and no exception register (rules R14 to R16; spec/20_memory.md rule R19; spec/60_exceptions.md
rules R66, R70). -/

namespace Sys2Proof.Machine

/-- Data part of slot 1, written by `rgba_unpack`: the four codes and the captured gamma (spec/10_state.md rule R13). -/
structure Slot1 where
  r : Code
  g : Code
  b : Code
  a : Code
  gm : B32
  deriving DecidableEq, Repr

/-- Data part of slot 2, written by `channel_normalizer` (rule R13). -/
structure Slot2 where
  r : B32
  g : B32
  b : B32
  a : B32
  gm : B32
  deriving DecidableEq, Repr

/-- Data part of slot 3, written by `fp_power_unit` (rule R13). -/
structure Slot3 where
  r : B32
  g : B32
  b : B32
  a : B32
  deriving DecidableEq, Repr

/-- Data part of slot 4, written by `clamp_unit` (rule R13). -/
structure Slot4 where
  r : B32
  g : B32
  b : B32
  a : B32
  deriving DecidableEq, Repr

/-- Data part of slot 5, written by `rgba_repack`; it drives `pixel_out` (rule R13). -/
structure Slot5 where
  px : Word
  deriving DecidableEq, Repr

/-- The state of the block during one clock cycle. -/
structure State where
  /-- `GAMMA` (spec/10_state.md rule R12). -/
  gamma : B32
  /-- `V[1]` to `V[5]`, the valid bits (rule R13). -/
  v1 : Bool
  v2 : Bool
  v3 : Bool
  v4 : Bool
  v5 : Bool
  /-- `S1` to `S5`, the data parts of the slots (rule R13). -/
  s1 : Slot1
  s2 : Slot2
  s3 : Slot3
  s4 : Slot4
  s5 : Slot5
  /-- THE MODEL'S OWN: the number of the clock cycle (spec/40_interface_ops.md rule R35 numbers the cycles). No register of
  the block; it only tells one draw of a free value from the next (notes/assumptions/3.md). -/
  cycle : Nat
  /-- THE MODEL'S OWN: the bundles the host presents in this cycle and the following ones, the first in this cycle. The input
  bundle is no state of the block (rule R17); the host drives it (spec/00_scope.md rule R6; notes/assumptions/5.md). -/
  pending : List Bundle
  deriving DecidableEq, Repr

/-- Why a step would stop with a fault. There is NO constructor: "The block raises no synchronous exception, ever"
(spec/60_exceptions.md rule R66), so no operation raises one. Safe: the model stops nowhere. -/
inductive Fault where
  deriving DecidableEq, Repr

/-- Why a step would be refused. -/
inductive Refusal where
  /-- An operation without a meaning; an arm of `exec` would raise it. No arm does: every bundle is one of five operations and
  each has its meaning (spec/60_exceptions.md rule R66: no refusal outcome). Safe: a refused step proves nothing. -/
  | notModelled (mnemonic : String)
  deriving DecidableEq, Repr

/-- The machine right after a cycle with `rst = 1` (spec/10_state.md rule R18; spec/70_reset_and_hazards.md rule R75): every
valid bit 0. For `GAMMA` and the slot data rule R18 gives no value; they are 0 here (notes/assumptions/1.md, DESIGN CHOICE,
unsafe). Nothing is presented yet, so what the host drives is free (notes/assumptions/5.md). -/
def State.reset : State where
  gamma := 0#32
  v1 := false
  v2 := false
  v3 := false
  v4 := false
  v5 := false
  s1 := ⟨0#8, 0#8, 0#8, 0#8, 0#32⟩
  s2 := ⟨0#32, 0#32, 0#32, 0#32, 0#32⟩
  s3 := ⟨0#32, 0#32, 0#32, 0#32⟩
  s4 := ⟨0#32, 0#32, 0#32, 0#32⟩
  s5 := ⟨0#32⟩
  cycle := 0
  pending := []

end Sys2Proof.Machine
end

