-- ==== Sys2Proof/Machine/Operands.lean ====
section
/-! DEFINITION. The operand formats: the packed pixel `PX32` and its lanes (spec/30_encoding.md rule R29), with stage 1,
`rgba_unpack` (spec/41_rgba_unpack.md rule R46). The other format, `F32`, is one binary32 pattern taken verbatim (rules R29, R32);
there are no immediates, no registers and no addresses (rule R32; spec/40_interface_ops.md rule R84). -/

namespace Sys2Proof.Machine

/-- `R` = `px[7:0]` (spec/30_encoding.md rule R29). -/
def redOf (p : Word) : Code := p.extractLsb' 0 8
/-- `G` = `px[15:8]`. -/
def greenOf (p : Word) : Code := p.extractLsb' 8 8
/-- `B` = `px[23:16]`. -/
def blueOf (p : Word) : Code := p.extractLsb' 16 8
/-- `A` = `px[31:24]`. -/
def alphaOf (p : Word) : Code := p.extractLsb' 24 8

/-- The packed pixel `{a, b, g, r}` of four codes (spec/30_encoding.md rule R29). -/
def packPixel (r g b a : Code) : Word := a ++ b ++ g ++ r

/-- `UNPACK(p)` beside the captured gamma: what `rgba_unpack` writes to slot 1 (spec/41_rgba_unpack.md rule R46). -/
def unpack (p : Word) (gm : B32) : Slot1 := ⟨redOf p, greenOf p, blueOf p, alphaOf p, gm⟩

end Sys2Proof.Machine
end

