-- ==== Sys2Proof/Machine/Rounding.lean ====
section
/-! DEFINITION. The exact value of a binary32 pattern and the one rounding function `RNE32` (spec/00_scope.md rule R10).
Magnitudes are natural numbers, counted in units of 2^-150, in which every finite value and every point half way between two
neighbouring values is a whole number. `RNE32` is defined once, for any exact real that can be compared with such numbers:
the stages that round a quotient or a product and the stage that rounds a power share it. -/

namespace Sys2Proof.Machine

/-- The significand of a pattern without its sign: `2^23 + f` when `e >= 1`, `f` when `e = 0` (spec/00_scope.md rule R10). -/
def signif (p : Nat) : Nat := if p / 2 ^ 23 = 0 then p % 2 ^ 23 else 2 ^ 23 + p % 2 ^ 23

/-- The power of two that multiplies the significand, counted from 2^-150: `e`, and 1 when `e = 0` (rule R10). -/
def scaleOf (p : Nat) : Nat := if p / 2 ^ 23 = 0 then 1 else p / 2 ^ 23

/-- The value of the pattern with unsigned bits `p` and sign 0, in units of 2^-150. -/
def patternUnits (p : Nat) : Nat := signif p * 2 ^ scaleOf p

/-- The natural number `m * 2^e`, held as the pair. -/
structure Scaled where
  m : Nat
  e : Nat
  deriving DecidableEq, Repr

/-- The number a pair stands for. -/
def Scaled.toNat (a : Scaled) : Nat := a.m * 2 ^ a.e

/-- The point half way between the value of pattern `p` and the next larger one, in units of 2^-150. For the largest finite
pattern it is 2^128 - 2^103, from where on `RNE32` gives an infinity (spec/00_scope.md rule R10). -/
def midpoint (p : Nat) : Scaled := ⟨2 * signif p + 1, scaleOf p - 1⟩

/-- The pattern of a 32-bit word without its sign bit. -/
def magnitude (b : B32) : Nat := b.toNat % 2 ^ 31

/-- `|val(b)|` in units of 2^-150, for a finite pattern. -/
def units (b : B32) : Nat := patternUnits (magnitude b)

/-- Whether the exact real that `cmp` compares with multiples of 2^-150 rounds to a pattern above `p`: it lies above the half
way point, or on it while `p` is odd ("when two are equally near, the one whose `f` is even"). -/
def roundsAbove (cmp : Scaled → Ordering) (p : Nat) : Bool :=
  match cmp (midpoint p) with
  | .gt => true
  | .eq => p % 2 == 1
  | .lt => false

/-- The largest pattern, up to the infinity, that the real rounds to or above, found bit by bit from bit `i - 1` down; `acc`
holds the bits found. -/
def roundBits (cmp : Scaled → Ordering) : Nat → Nat → Nat
  | 0, acc => acc
  | i + 1, acc =>
    if acc + 2 ^ i ≤ 0x7F800000 && roundsAbove cmp (acc + 2 ^ i - 1) then roundBits cmp i (acc + 2 ^ i)
    else roundBits cmp i acc

/-- `RNE32` of a positive real, given by its comparison with the multiples of 2^-150. -/
def roundPattern (cmp : Scaled → Ordering) : Nat := roundBits cmp 31 0

/-- The comparison of the rational `num / den` with `q` units of 2^-150. -/
def ratioCompare (num den : Nat) (q : Scaled) : Ordering := compare (num * 2 ^ 150) (q.toNat * den)

/-- `RNE32(q)` of the rational `q = num / den`, negated when `neg` (spec/00_scope.md rule R10): `q = 0` gives +0, a nonzero
`q` keeps its sign. -/
def rne32 (neg : Bool) (num den : Nat) : B32 :=
  if num = 0 then pZero
  else BitVec.ofNat 32 ((if neg then 2 ^ 31 else 0) + roundPattern (ratioCompare num den))

/-- `RINT(q)` of the rational `q = num / den`: the nearest integer, ties to the even integer (spec/00_scope.md rule R10). -/
def rint (num den : Nat) : Nat :=
  match compare (2 * (num % den)) den with
  | .lt => num / den
  | .gt => num / den + 1
  | .eq => num / den + num / den % 2

end Sys2Proof.Machine
end

