-- ==== Sys2Proof/Machine/Normalizer.lean ====
section
/-! DEFINITION. Stage 2, `channel_normalizer` (spec/42_channel_normalizer.md). -/

namespace Sys2Proof.Machine

/-- `NORM(c) = RNE32(c / 255)`, one rounding of the exact quotient (spec/42_channel_normalizer.md rule R48). -/
def norm (c : Code) : B32 := rne32 false c.toNat 255

end Sys2Proof.Machine
end

