-- ==== Sys2Proof/Machine/Repack.lean ====
section
/-! DEFINITION. Stage 5, `rgba_repack` (spec/45_rgba_repack.md). -/

namespace Sys2Proof.Machine

/-- The first rounding of `PACK`: `m = RNE32(val(v) * 255)`, and `m = v` when `v` is an infinity
(spec/45_rgba_repack.md rule R62). -/
def packProduct (v : B32) : B32 := if isInf v then v else rne32 (sign v) (units v * 255) (2 ^ 150)

/-- `PACK(v)`: a NaN gives 0; else the product by 255 is rounded to binary32 and then to the nearest integer, ties to even, and
saturated to 0 to 255 (rules R62, R65). -/
def pack (v : B32) : Code :=
  if isNaN v then 0#8
  else if sign (packProduct v) || isZero (packProduct v) then 0#8
  else if f255 ≤ packProduct v then 255#8
  else BitVec.ofNat 8 (rint (units (packProduct v)) (2 ^ 150))

/-- `REPACK(zr, zg, zb, xa) = { PACK(xa), PACK(zb), PACK(zg), PACK(zr) }` (spec/45_rgba_repack.md rule R63). -/
def repack (zr zg zb xa : B32) : Word := packPixel (pack zr) (pack zg) (pack zb) (pack xa)

end Sys2Proof.Machine
end

