-- ==== Sys2Proof/Machine/Power.lean ====
section
/-! DEFINITION. Stage 3, `fp_power_unit` (spec/43_fp_power_unit.md): the special cases of rules R52 to R56 and the general
case of rule R57, the correctly rounded real power.

The power `val(x) ^ val(y)` is never computed as a number. `RNE32` only asks how it compares with rational half way points, and
with `val(x) = s / 2^d`, `|val(y)| = n / 2^k` and a half way point `m / 2^150` that is a comparison of natural numbers:

  `(s / 2^d) ^ (n / 2^k) < m / 2^150`   iff   `s^n * 2^(150 * 2^k) < m^(2^k) * 2^(d * n)`,

and the same with the base turned upside down for a negative `y`. The two powers are first enclosed by natural numbers of at most
192 bits; only when the enclosures overlap are the exact powers compared. So the answer is exact for every operand, and
quick to evaluate. -/

namespace Sys2Proof.Machine

/-- `k n`. Splitting on `n` makes Lean's kernel reduce `n` to a numeral before it goes on. -/
def forceNat {α : Type} (n : Nat) (k : Nat → α) : α :=
  match n with
  | 0 => k 0
  | m + 1 => k m.succ

/-- `k a`, both parts of `a` reduced to numerals first. -/
def Scaled.force {α : Type} (a : Scaled) (k : Scaled → α) : α := forceNat a.m fun m => forceNat a.e fun e => k ⟨m, e⟩

/-- The product of two scaled numbers. -/
def Scaled.mul (a b : Scaled) : Scaled := ⟨a.m * b.m, a.e + b.e⟩

/-- How many of the lowest bits of `m` the enclosures drop: so many that 192 remain of a product of two such numbers, and
always more than 95. -/
def excessBits (m : Nat) : Nat := if m < 2 ^ 192 then 0 else if m < 2 ^ 288 then 96 else 192

/-- A shorter number that is not larger. -/
def Scaled.down (a : Scaled) : Scaled := forceNat (excessBits a.m) fun x => ⟨a.m >>> x, a.e + x⟩

/-- A shorter number that is not smaller. -/
def Scaled.up (a : Scaled) : Scaled :=
  forceNat (excessBits a.m) fun x => if x = 0 then a else ⟨(a.m >>> x).succ, a.e + x⟩

/-- `a < b` as numbers. Far apart exponents decide it without a shift. -/
def Scaled.lt (a b : Scaled) : Bool :=
  if a.e ≤ b.e then
    if 512 ≤ b.e - a.e && a.m < 2 ^ 512 then b.m != 0 else a.m < b.m <<< (b.e - a.e)
  else
    if 512 ≤ a.e - b.e && b.m < 2 ^ 512 then a.m == 0 && b.m != 0 else a.m <<< (a.e - b.e) < b.m

/-- `acc^(2^i) * b^(n mod 2^i)`, each product rounded by `rnd`: the square-and-multiply loop over the lowest `i` bits of `n`. -/
def powerLoop (rnd : Scaled → Scaled) (b : Scaled) (n : Nat) : Nat → Scaled → Scaled
  | 0, acc => acc
  | i + 1, acc =>
    Scaled.force (acc.mul acc) fun p => Scaled.force (rnd p) fun sq =>
      match n.testBit i with
      | true => Scaled.force (sq.mul b) fun q => Scaled.force (rnd q) fun r => powerLoop rnd b n i r
      | false => powerLoop rnd b n i sq

/-- `b^n`, each product rounded by `rnd`. -/
def scaledPower (rnd : Scaled → Scaled) (b : Scaled) (n : Nat) : Scaled := powerLoop rnd b n (n.log2 + 1) ⟨1, 0⟩

/-- `a^(2^k)`: `k` squarings, each rounded by `rnd`. -/
def squareTimes (rnd : Scaled → Scaled) : Nat → Scaled → Scaled
  | 0, a => a
  | k + 1, a => Scaled.force (a.mul a) fun p => Scaled.force (rnd p) fun sq => squareTimes rnd k sq

/-- The fraction `n / 2^k` with factors of two cancelled as far as they go. -/
def cancelTwos : Nat → Nat → Nat × Nat
  | n, 0 => (n, 0)
  | n, k + 1 => if n % 2 = 0 then cancelTwos (n / 2) k else (n, k + 1)

/-- The exact comparison of `(s / 2^d) ^ (n / 2^k)`, or of its reciprocal when `neg`, with `q` units of
2^-150. -/
def powerCompareExact (neg : Bool) (s d n k : Nat) (q : Scaled) : Ordering :=
  if neg then compare (2 ^ (d * n + 150 * 2 ^ k)) (s ^ n * q.toNat ^ 2 ^ k)
  else compare (s ^ n * 2 ^ (150 * 2 ^ k)) (q.toNat ^ 2 ^ k * 2 ^ (d * n))

/-- The same comparison from the enclosure `sLo <= s^n <= sHi`, and exactly where the enclosures do not decide it. -/
def powerCompare (neg : Bool) (s d n k : Nat) (sLo sHi q : Scaled) : Ordering :=
  Scaled.force (squareTimes Scaled.down k q) fun qLo =>
    Scaled.force (squareTimes Scaled.up k q) fun qHi =>
      if neg then
        if Scaled.lt ⟨1, d * n + 150 * 2 ^ k⟩ (sLo.mul qLo) then .lt
        else if Scaled.lt (sHi.mul qHi) ⟨1, d * n + 150 * 2 ^ k⟩ then .gt
        else powerCompareExact neg s d n k q
      else
        if Scaled.lt (sHi.mul ⟨1, 150 * 2 ^ k⟩) (qLo.mul ⟨1, d * n⟩) then .lt
        else if Scaled.lt (qHi.mul ⟨1, d * n⟩) (sLo.mul ⟨1, 150 * 2 ^ k⟩) then .gt
        else powerCompareExact neg s d n k q

/-- `RNE32` of `(s / 2^d) ^ (n / 2^k)`, or of its reciprocal when `neg`. -/
def roundPower (neg : Bool) (s d n k : Nat) : Nat :=
  Scaled.force (scaledPower Scaled.down ⟨s, 0⟩ n) fun lo => Scaled.force (scaledPower Scaled.up ⟨s, 0⟩ n) fun hi =>
    roundPattern (powerCompare neg s d n k lo hi)

/-- `POW_FN`, the general case: `RNE32(val(x) ^ val(y))` for `0 < val(x) < 1` and `y` finite and nonzero
(spec/43_fp_power_unit.md rule R57; the reference, property PW6 of rule R58). -/
def powFn (x y : B32) : B32 :=
  match cancelTwos (units y) 150 with
  | (n, k) =>
    forceNat n fun n => forceNat k fun k =>
      BitVec.ofNat 32 (roundPower (sign y) (signif (magnitude x)) (150 - scaleOf (magnitude x)) n k)

/-- The set `X` of the 256 normalised codes, the only bases an `APPLY` can produce: `x` is `NORM` of the code it packs to
(spec/42_channel_normalizer.md rule R50 N2, N4; spec/45_rgba_repack.md rule R64). -/
def isNormalised (x : B32) : Bool := norm (pack x) == x

/-- `POW(x, y)` for a base of `X`, with the general case as an argument: the first case that matches
(spec/43_fp_power_unit.md rules R51 to R58). -/
def powCases (fn : B32 → B32 → B32) (x y : B32) : B32 :=
  if isZero y then one
  else if x = one then one
  else if isNaN y then qNaN
  else if x = pZero ∧ sign y = false then pZero
  else if x = pZero then pInf
  else if y = pInf then pZero
  else if y = nInf then pInf
  else fn x y

/-- `POW(x, y)` (spec/43_fp_power_unit.md rule R51). For a base outside `X` the rule specifies no result: a free value
(spec/93_implementation_defined.md U8; notes/assumptions/4.md). -/
def pow (x y : B32) : B32 := if isNormalised x then powCases powFn x y else Config.powOutsideX x y

end Sys2Proof.Machine
end

