-- ==== Sys2Proof/Machine/Ops.lean ====
section
/-! DEFINITION. The named operations over the state: the clock edge that every operation but `RESET` shares, the edge of
`RESET`, the outputs of a cycle, the function `apply`, and the bundle on the input ports (spec/40_interface_ops.md).
There is no operation over memory, on a register file or for taking an exception or returning from one, because the block has
none of them (spec/20_memory.md rule R19; spec/10_state.md rule R14; spec/60_exceptions.md rules R66, R70, R71). -/

namespace Sys2Proof.Machine

/-- Stage 2 of rule R35: the four lanes normalised, the captured gamma passed on (spec/42_channel_normalizer.md rule R48). -/
def stage2 (d : Slot1) : Slot2 := ⟨norm d.r, norm d.g, norm d.b, norm d.a, d.gm⟩

/-- Stage 3 of rule R35: the three colour lanes raised to the captured gamma, alpha passed on (spec/43_fp_power_unit.md
rule R51). -/
def stage3 (d : Slot2) : Slot3 := ⟨pow d.r d.gm, pow d.g d.gm, pow d.b d.gm, d.a⟩

/-- Stage 4 of rule R35: the three colour lanes clamped, alpha passed on (spec/44_clamp_unit.md rule R60). -/
def stage4 (d : Slot3) : Slot4 := ⟨clamp d.r, clamp d.g, clamp d.b, d.a⟩

/-- Stage 5 of rule R35: the four lanes packed (spec/45_rgba_repack.md rule R63). -/
def stage5 (d : Slot4) : Slot5 := ⟨repack d.r d.g d.b d.a⟩

/-- What slot 1 holds after a cycle that accepted no pixel: unspecified in every field (spec/93_implementation_defined.md U3). -/
def emptySlot1 (cycle : Nat) : Slot1 :=
  unpack (Config.openWord .s1Codes cycle) (Config.openWord .s1Gm cycle)

/-- Stage 1 of rule R35: an accepted pixel is unpacked beside the content `GAMMA` has in this cycle
(spec/41_rgba_unpack.md rule R46). -/
def stage1 (entering : Option Word) (gamma : B32) (cycle : Nat) : Slot1 :=
  match entering with
  | some p => unpack p gamma
  | none => emptySlot1 cycle

/-- The clock edge of a cycle with `rst = 0` (spec/40_interface_ops.md rule R35, the `else` branch): every slot advances by
one, slot 1 takes the pixel accepted in this cycle, if there is one, and `GAMMA` takes the value written in this cycle, if there is one.
Every right-hand side is read from the state of this cycle (spec/00_scope.md rule R9). -/
def advance (s : State) (entering : Option Word) (written : Option B32) : State where
  gamma := written.getD s.gamma
  v1 := entering.isSome
  v2 := s.v1
  v3 := s.v2
  v4 := s.v3
  v5 := s.v4
  s1 := stage1 entering s.gamma s.cycle
  s2 := stage2 s.s1
  s3 := stage3 s.s2
  s4 := stage4 s.s3
  s5 := stage5 s.s4
  cycle := s.cycle + 1
  pending := s.pending

/-- The clock edge of a cycle with `rst = 1` (spec/40_interface_ops.md rules R35, R36): every valid bit 0, `GAMMA` and the data
part of every slot unspecified, drawn anew (spec/10_state.md rule R18; spec/93_implementation_defined.md U1, U3). -/
def resetEdge (s : State) : State where
  gamma := Config.openWord .gammaAfterReset s.cycle
  v1 := false
  v2 := false
  v3 := false
  v4 := false
  v5 := false
  s1 := emptySlot1 s.cycle
  s2 := ⟨Config.openWord .s2R s.cycle, Config.openWord .s2G s.cycle, Config.openWord .s2B s.cycle,
    Config.openWord .s2A s.cycle, Config.openWord .s2Gm s.cycle⟩
  s3 := ⟨Config.openWord .s3R s.cycle, Config.openWord .s3G s.cycle, Config.openWord .s3B s.cycle,
    Config.openWord .s3A s.cycle⟩
  s4 := ⟨Config.openWord .s4R s.cycle, Config.openWord .s4G s.cycle, Config.openWord .s4B s.cycle,
    Config.openWord .s4A s.cycle⟩
  s5 := ⟨Config.openWord .s5Px s.cycle⟩
  cycle := s.cycle + 1
  pending := s.pending

/-- `chan(c, g) = PACK(CLAMP(POW(NORM(c), g)))`, what a colour lane does to a code (spec/40_interface_ops.md rule R41). -/
def chan (c : Code) (g : B32) : Code := pack (clamp (pow (norm c) g))

/-- `alpha(c) = PACK(NORM(c))`, what the alpha lane does to a code (rule R41; spec/45_rgba_repack.md rule R64). -/
def alphaLane (c : Code) : Code := pack (norm c)

/-- `apply(p, g)`, the function every accepted pixel undergoes (spec/40_interface_ops.md rule R41): the five stages in
their order. -/
def applyPixel (p : Word) (g : B32) : Word := (stage5 (stage4 (stage3 (stage2 (unpack p g))))).px

/-- `out_valid` of a cycle: `V[LATENCY]` (spec/40_interface_ops.md rule R43). -/
def outValid (s : State) : Bool := s.v5

/-- `pixel_out` of a cycle: the data part of the last slot when `out_valid = 1`, unspecified otherwise, with a draw of its own in
every cycle (rule R43; spec/93_implementation_defined.md U2). -/
def pixelOut (s : State) : Word := if s.v5 then s.s5.px else Config.openWord .pixelOutIdle s.cycle

/-- `OB33`, the output bundle of a cycle: `OB33[32] = out_valid`, `OB33[31:0] = pixel_out` (spec/30_encoding.md rule R28). -/
def outputs (s : State) : OutBundle := BitVec.ofBool (outValid s) ++ pixelOut s

/-- The result the block shows in a cycle, if it shows one (rule R43). -/
def shown (s : State) : Option Word := if outValid s then some (pixelOut s) else none

/-- Drained: "every `V[k] = 0`" (spec/70_reset_and_hazards.md rule R76). -/
def drained (s : State) : Bool := !s.v1 && !s.v2 && !s.v3 && !s.v4 && !s.v5

/-- The bundle on the input ports `k` cycles from now: the one the state lists for that cycle, and where it lists none, whatever
the host drives (spec/00_scope.md rule R6; notes/assumptions/5.md). -/
def bundleAt (s : State) (k : Nat) : Bundle := s.pending.getD k (Config.hostBundle (s.cycle + k))

/-- The bundle on the input ports in this cycle. -/
def presented (s : State) : Bundle := bundleAt s 0

/-- The host goes on to the bundle of the next cycle. -/
def hostAdvance (s : State) : State := { s with pending := s.pending.tail }

/-- The host presents `b` in this cycle, in place of what it would have presented. -/
def present (s : State) (b : Bundle) : State := { s with pending := b :: s.pending.tail }

end Sys2Proof.Machine
end

