-- ==== Sys2Proof/Machine/Interface.lean ====
section
/-! DEFINITION. The meanings of the five operations (spec/40_interface_ops.md rules R36 to R40). Each is one clock cycle and
always answers a next state: "A model's step function for this block has one outcome, the next state" (spec/60_exceptions.md
rule R66). -/

namespace Sys2Proof.Machine

/-- `RESET` (spec/40_interface_ops.md rule R36): the pixels in flight are dropped, `GAMMA` and the slot data are unspecified. -/
def execReset (s : State) : Host.Outcome State Fault Refusal := .next (resetEdge s)

/-- `NOP` (rule R37): every slot advances, no pixel enters, `GAMMA` keeps its content. -/
def execNop (s : State) : Host.Outcome State Fault Refusal := .next (advance s none none)

/-- `APPLY p` (rule R38): every slot advances, `p` enters slot 1 beside the content of `GAMMA`, which is kept. -/
def execApply (p : Word) (s : State) : Host.Outcome State Fault Refusal := .next (advance s (some p) none)

/-- `SETGAMMA g` (rule R39): every slot advances, no pixel enters, `GAMMA` takes `g` bit for bit. -/
def execSetgamma (g : B32) (s : State) : Host.Outcome State Fault Refusal := .next (advance s none (some g))

/-- `APPLY_SETGAMMA p, g` (rule R40): `APPLY p` and `SETGAMMA g` in one cycle; `p` enters beside the old content of `GAMMA`. -/
def execApplySetgamma (p : Word) (g : B32) (s : State) : Host.Outcome State Fault Refusal :=
  .next (advance s (some p) (some g))

end Sys2Proof.Machine
end

