-- ==== Sys2Proof/Machine/Dispatch.lean ====
section
/-! DEFINITION. The operation map of meanings: one arm per operation (spec/30_encoding.md rule R30). -/

namespace Sys2Proof.Machine

def exec (i : Instr) (s : State) : Host.Outcome State Fault Refusal :=
  match i with
  | .reset => Sys2Proof.Machine.execReset s
  | .nop => Sys2Proof.Machine.execNop s
  | .apply p => Sys2Proof.Machine.execApply p s
  | .setgamma g => Sys2Proof.Machine.execSetgamma g s
  | .applySetgamma p g => Sys2Proof.Machine.execApplySetgamma p g s

end Sys2Proof.Machine
end

