-- ==== Sys2Proof/Machine/Step.lean ====
section
/-! DEFINITION. One clock cycle (spec/40_interface_ops.md rule R35): the bundle on the input ports is decoded and its operation
is executed; the host goes on to its next bundle. -/

namespace Sys2Proof.Machine

/-- The step of the block at a rising clock edge (spec/40_interface_ops.md rule R35). -/
def step (s : State) : Host.Outcome State Fault Refusal := exec (decode (presented s)) (hostAdvance s)

/-- The state with the operation whose bits are `w` on the input ports in this cycle (notes/assumptions/5.md: the host's
driving of the ports stands for the loading of a program). -/
def State.withFetchWord (s : State) (nbits w : Nat) : State := present s (BitVec.ofNat 67 (w % 2 ^ nbits))

end Sys2Proof.Machine
end

