-- ==== Sys2Proof/Machine/Trace.lean ====
section
/-! DEFINITION. The trace syntax of spec/30_encoding.md rule R34: what each line stands for, how a line and an output are
written, and how a trace is read (notes/assumptions/11.md for what the rule leaves open of its spelling). There is no toolchain; the syntax "exists for tests and proofs only". -/

namespace Sys2Proof.Machine

/-- The operations a trace line stands for, one per clock cycle, for a block of the given latency (rule R34). -/
def expandLine (latency : Nat) : TraceLine → List Instr
  | .reset => [.reset]
  | .nop => [.nop]
  | .apply p => [.apply p]
  | .setgamma g => [.setgamma g]
  | .applySetgamma p g => [.applySetgamma p g]
  | .drain => List.replicate latency .nop
  | .nops n => List.replicate n .nop
  | .setgammaf neg digits places => [.setgamma (rne32 neg digits (10 ^ places))]
  | .applyrgba r g b a =>
    [.apply (packPixel (BitVec.ofNat 8 r) (BitVec.ofNat 8 g) (BitVec.ofNat 8 b) (BitVec.ofNat 8 a))]
  | .pass g pixels => .setgamma g :: (pixels.map Instr.apply ++ List.replicate latency .nop)

/-- The bundles of a trace, one per clock cycle, in their canonical spelling. -/
def traceBundles (latency : Nat) (lines : List TraceLine) : List Bundle :=
  (lines.flatMap (expandLine latency)).map encode

/-- A hexadecimal digit. -/
def hexDigit (d : Nat) : Char := "0123456789ABCDEF".toList.getD d '?'

/-- The lowest `k` hexadecimal digits of a number. -/
def hexDigits (n : Nat) : Nat → List Char
  | 0 => []
  | k + 1 => hexDigit (n / 16 ^ k % 16) :: hexDigits n k

/-- `0x` and the eight digits of a 32-bit word (spec/00_scope.md rule R8). -/
def wordText (w : BitVec 32) : String := "0x" ++ String.ofList (hexDigits w.toNat 8)

/-- `0x` and the 17 digits of a bundle (spec/30_encoding.md rule R30). -/
def bundleText (b : Bundle) : String := "0x" ++ String.ofList (hexDigits b.toNat 17)

/-- The trace line of an operation (spec/30_encoding.md rule R34). -/
def opText : Instr → String
  | .reset => "RESET"
  | .nop => "NOP"
  | .apply p => "APPLY " ++ wordText p
  | .setgamma g => "SETGAMMA " ++ wordText g
  | .applySetgamma p g => "APPLY " ++ wordText p ++ " || SETGAMMA " ++ wordText g

/-- The output line of a cycle: `-`, or `OUT` and the pixel (rule R34). -/
def outputText (s : State) : String := if outValid s then "OUT " ++ wordText (pixelOut s) else "-"

/-! ### Reading a trace -/

/-- The words of a line: separated by spaces; `,` and `;` are words of their own; `#` starts a comment (rule R34). `word` holds
the word read so far, last character first. -/
def lexLine : List Char → List Char → List (List Char)
  | word, [] => if word.isEmpty then [] else [word.reverse]
  | word, c :: rest =>
    let before := if word.isEmpty then [] else [word.reverse]
    if c = '#' then before
    else if c = ' ' then before ++ lexLine [] rest
    else if c = ',' ∨ c = ';' then before ++ [c] :: lexLine [] rest
    else lexLine (c :: word) rest

/-- The value of a digit in a base up to 16; letters in either case. -/
def digitOf (base : Nat) (c : Char) : Option Nat :=
  let n := c.toNat
  let d := if 48 ≤ n ∧ n ≤ 57 then n - 48 else if 65 ≤ n ∧ n ≤ 70 then n - 55 else if 97 ≤ n ∧ n ≤ 102 then n - 87 else base
  if d < base then some d else none

/-- The number that digits stand for, after the digits of `acc`. -/
def digitsValue (base : Nat) : Nat → List Char → Option Nat
  | acc, [] => some acc
  | acc, c :: rest =>
    match digitOf base c with
    | some d => digitsValue base (acc * base + d) rest
    | none => none

/-- A decimal number without sign. -/
def readNat (t : List Char) : Option Nat := if t.isEmpty then none else digitsValue 10 0 t

/-- A 32-bit pattern: `0x` and eight hexadecimal digits (spec/00_scope.md rule R8). -/
def readWord (t : List Char) : Option Word :=
  match t with
  | '0' :: 'x' :: ds => if ds.length = 8 then (digitsValue 16 0 ds).map (BitVec.ofNat 32) else none
  | _ => none

/-- A decimal: digits, or digits, a point and digits, with a minus sign before it or none. -/
def readDecimal (t : List Char) : Option (Bool × Nat × Nat) :=
  let neg := t.head? = some '-'
  let body := if neg then t.tail else t
  let whole := body.takeWhile (· ≠ '.')
  let frac := (body.dropWhile (· ≠ '.')).tail
  if whole.length + frac.length + (if whole.length = body.length then 0 else 1) ≠ body.length ∨ whole.isEmpty then none
  else if whole.length < body.length ∧ frac.isEmpty then none
  else (digitsValue 10 0 (whole ++ frac)).map fun d => (neg, d, frac.length)

/-- The trace line that the words of a line spell (rule R34), if they spell one. -/
def readWords (words : List (List Char)) : Option TraceLine :=
  match words with
  | [] => none
  | op :: args =>
    if op = "RESET".toList ∧ args = [] then some .reset
    else if op = "NOP".toList then
      match args with
      | [] => some .nop
      | [n] => (readNat n).map .nops
      | _ => none
    else if op = "DRAIN".toList ∧ args = [] then some .drain
    else if op = "SETGAMMA".toList then
      match args with
      | [g] => (readWord g).map .setgamma
      | _ => none
    else if op = "APPLY".toList then
      match args with
      | [p] => (readWord p).map .apply
      | [p, bars, set, g] =>
        if bars = "||".toList ∧ set = "SETGAMMA".toList then
          (readWord p).bind fun p => (readWord g).map fun g => .applySetgamma p g
        else none
      | _ => none
    else if op = "SETGAMMAF".toList then
      match args with
      | [d] => (readDecimal d).map fun d => .setgammaf d.1 d.2.1 d.2.2
      | _ => none
    else if op = "APPLYRGBA".toList then
      match args with
      | [r, [','], g, [','], b, [','], a] =>
        (readNat r).bind fun r => (readNat g).bind fun g => (readNat b).bind fun b => (readNat a).bind fun a =>
          if TraceLine.wellFormed (.applyrgba r g b a) then some (.applyrgba r g b a) else none
      | _ => none
    else if op = "PASS".toList then
      match args with
      | g :: [';'] :: pixels => (readWord g).bind fun g => (pixels.mapM readWord).map fun ps => .pass g ps
      | _ => none
    else none

/-- The lines of a text, without their ends. `line` holds the line read so far, last character first. -/
def splitLines : List Char → List Char → List (List Char)
  | line, [] => [line.reverse]
  | line, c :: rest => if c = '\n' then line.reverse :: splitLines [] rest else splitLines (c :: line) rest

/-- A trace as text, one line per trace line; a line without words (empty, or a comment only) is no cycle. `none` where some
other line is no line of rule R34. -/
def readTrace (text : String) : Option (List TraceLine) :=
  (((splitLines [] text.toList).map (lexLine [])).filter (fun ws => !ws.isEmpty)).mapM readWords

end Sys2Proof.Machine
end

