-- ==== Sys2Proof/Machine/AnyLatency.lean ====
section
/-! DEFINITION. The block for any `LATENCY >= 1` (spec/00_scope.md rule R7: the parameter is open; spec/40_interface_ops.md rule
R44: a block "that computes `apply` at acceptance and delays the finished word by `LATENCY` cycles" is indistinguishable at the
ports from the reference structure). The latency is the length of the delay line. Beside it stand the view of the reference
structure as such a line, and the content of `GAMMA` as rule R44 words it. -/

namespace Sys2Proof.Machine

/-- A block that finishes a pixel when it accepts it: `GAMMA`, the finished words in flight (slot 1 first, `none` where the valid
bit is 0), and the number of the cycle, which tells the draws of the free values apart. -/
structure PixelPipe where
  gamma : B32
  line : List (Option Word)
  cycle : Nat
  deriving DecidableEq, Repr

/-- The clock edge of a cycle with `rst = 0`: the words move on by one slot. -/
def PixelPipe.shift (d : PixelPipe) (entering : Option Word) (written : Option B32) : PixelPipe where
  gamma := written.getD d.gamma
  line := (entering.map (fun p => applyPixel p d.gamma) :: d.line).dropLast
  cycle := d.cycle + 1

/-- One clock cycle (spec/40_interface_ops.md rules R36 to R40). -/
def PixelPipe.clock (d : PixelPipe) (i : Instr) : PixelPipe :=
  match i with
  | .reset => ⟨Config.openWord .gammaAfterReset d.cycle, d.line.map fun _ => none, d.cycle + 1⟩
  | .nop => d.shift none none
  | .apply p => d.shift (some p) none
  | .setgamma g => d.shift none (some g)
  | .applySetgamma p g => d.shift (some p) (some g)

/-- The state after `t` cycles in which the host presents the operations `ops 0`, `ops 1`, ... -/
def PixelPipe.after (d : PixelPipe) (ops : Nat → Instr) : Nat → PixelPipe
  | 0 => d
  | t + 1 => (d.after ops t).clock (ops t)

/-- The result shown in a cycle, if one is: the word in slot `LATENCY` (rule R43). -/
def PixelPipe.shown (d : PixelPipe) : Option Word := d.line.getLast?.join

/-- The words that the five slots of the reference structure will show, slot 1 first, each finished by the stages still before
it. -/
def inFlight (s : State) : List (Option Word) :=
  [ if s.v1 then some (stage5 (stage4 (stage3 (stage2 s.s1)))).px else none,
    if s.v2 then some (stage5 (stage4 (stage3 s.s2))).px else none,
    if s.v3 then some (stage5 (stage4 s.s3)).px else none,
    if s.v4 then some (stage5 s.s4).px else none,
    if s.v5 then some s.s5.px else none ]

/-- The reference structure seen as a delay line of length 5. -/
def asPipe (s : State) : PixelPipe := ⟨s.gamma, inFlight s, s.cycle⟩

/-- The content of `GAMMA` in the cycle `t`, from its content `g0` in the cycle 0, which has number `c0`: the value of the latest write, unless
a `RESET` came after it, which draws a pattern (spec/40_interface_ops.md rule R44). -/
def gammaContent (g0 : B32) (c0 : Nat) (ops : Nat → Instr) : Nat → B32
  | 0 => g0
  | t + 1 =>
    match ops t with
    | .reset => Config.openWord .gammaAfterReset (c0 + t)
    | .nop => gammaContent g0 c0 ops t
    | .apply _ => gammaContent g0 c0 ops t
    | .setgamma g => g
    | .applySetgamma _ g => g

end Sys2Proof.Machine
end

