-- ==== Sys2Proof/Safety.lean ====
section
/-! DEFINITION. The terms in which statements about the block are made: the exact value of a pattern and what it is to be its
nearest one (spec/00_scope.md rule R10), the table of `NORM` (spec/42_channel_normalizer.md rule R49), which data the valid slots may hold
(spec/10_state.md rule R13), the properties asked of a power function (spec/43_fp_power_unit.md rule R58), and the
host's one duty about `GAMMA` (spec/70_reset_and_hazards.md rule R77). -/

namespace Sys2Proof.Machine

/-- `val(b)`, "the exact rational value of a finite pattern", as spec/00_scope.md rule R10 writes it. -/
def val (b : B32) : ℚ :=
  if biasedExp b = 0#8 then (if sign b then -1 else 1) * (2 : ℚ) ^ (-149 : ℤ) * (fraction b).toNat
  else (if sign b then -1 else 1) * (2 : ℚ) ^ ((biasedExp b).toNat - 150 : ℤ) * (2 ^ 23 + (fraction b).toNat : ℕ)

/-- `b` is `RNE32(q)` for the exact real `q` (spec/00_scope.md rule R10): +0 for 0; the infinity of the sign of `q` from
`2^128 - 2^103` on; else a finite pattern of the sign of `q`, none nearer, with an even fraction if another value is equally
near. -/
def IsRNE32 (q : ℝ) (b : B32) : Prop :=
  (q = 0 → b = pZero) ∧
  (2 ^ 128 - 2 ^ 103 ≤ q → b = pInf) ∧
  (q ≤ -(2 ^ 128 - 2 ^ 103) → b = nInf) ∧
  (q ≠ 0 → |q| < 2 ^ 128 - 2 ^ 103 →
    isFinite b = true ∧ (sign b = true ↔ q < 0) ∧
    ∀ c : B32, isFinite c = true →
      |(val b : ℝ) - q| ≤ |(val c : ℝ) - q| ∧
      (|(val b : ℝ) - q| = |(val c : ℝ) - q| → val c ≠ val b → (fraction b).toNat % 2 = 0))

/-- A base of the general case of `POW`: an element of `X` with `0 < val(x) < 1` (spec/43_fp_power_unit.md rule R51). -/
def isInnerBase (x : B32) : Bool := isNormalised x && x != pZero && x != one

/-- An exponent of the general case of `POW`: finite and nonzero, of either sign (spec/43_fp_power_unit.md rule R57). -/
def isInnerExponent (y : B32) : Bool := isFinite y && !isZero y

/-- The properties PW1 to PW5 of a power function (spec/43_fp_power_unit.md rule R58); PW0 holds of any function. -/
structure PowerProperties (fn : B32 → B32 → B32) : Prop where
  pw1 : ∀ x, isInnerBase x = true → fn x one = x
  pw2 : ∀ x y, isInnerBase x = true → isInnerExponent y = true →
    isNaN (fn x y) = false ∧ sign (fn x y) = false ∧ fn x y ≠ nZero
  pw3 : ∀ x y, isInnerBase x = true → isInnerExponent y = true → sign y = false → fn x y ≤ one
  pw4 : ∀ x y, isInnerBase x = true → isInnerExponent y = true → sign y = true → one ≤ fn x y
  pw5 : ∀ x x' y, isInnerBase x = true → isInnerBase x' = true → isInnerExponent y = true → x ≤ x' →
    if sign y then fn x' y ≤ fn x y else fn x y ≤ fn x' y

/-- `chan(c, g)` with another power function in the general case (spec/43_fp_power_unit.md rules R58, R59). -/
def chanWith (fn : B32 → B32 → B32) (c : Code) (g : B32) : Code := pack (clamp (powCases fn (norm c) g))

/-- The complete table of `NORM`, entry by entry as spec/42_channel_normalizer.md rule R49 lists it: the codes 0 to 63. -/
def normTable0 : List Nat := [
  0x00000000, 0x3B808081, 0x3C008081, 0x3C40C0C1, 0x3C808081, 0x3CA0A0A1, 0x3CC0C0C1, 0x3CE0E0E1,
  0x3D008081, 0x3D109091, 0x3D20A0A1, 0x3D30B0B1, 0x3D40C0C1, 0x3D50D0D1, 0x3D60E0E1, 0x3D70F0F1,
  0x3D808081, 0x3D888889, 0x3D909091, 0x3D989899, 0x3DA0A0A1, 0x3DA8A8A9, 0x3DB0B0B1, 0x3DB8B8B9,
  0x3DC0C0C1, 0x3DC8C8C9, 0x3DD0D0D1, 0x3DD8D8D9, 0x3DE0E0E1, 0x3DE8E8E9, 0x3DF0F0F1, 0x3DF8F8F9,
  0x3E008081, 0x3E048485, 0x3E088889, 0x3E0C8C8D, 0x3E109091, 0x3E149495, 0x3E189899, 0x3E1C9C9D,
  0x3E20A0A1, 0x3E24A4A5, 0x3E28A8A9, 0x3E2CACAD, 0x3E30B0B1, 0x3E34B4B5, 0x3E38B8B9, 0x3E3CBCBD,
  0x3E40C0C1, 0x3E44C4C5, 0x3E48C8C9, 0x3E4CCCCD, 0x3E50D0D1, 0x3E54D4D5, 0x3E58D8D9, 0x3E5CDCDD,
  0x3E60E0E1, 0x3E64E4E5, 0x3E68E8E9, 0x3E6CECED, 0x3E70F0F1, 0x3E74F4F5, 0x3E78F8F9, 0x3E7CFCFD]

/-- The codes 64 to 127. -/
def normTable1 : List Nat := [
  0x3E808081, 0x3E828283, 0x3E848485, 0x3E868687, 0x3E888889, 0x3E8A8A8B, 0x3E8C8C8D, 0x3E8E8E8F,
  0x3E909091, 0x3E929293, 0x3E949495, 0x3E969697, 0x3E989899, 0x3E9A9A9B, 0x3E9C9C9D, 0x3E9E9E9F,
  0x3EA0A0A1, 0x3EA2A2A3, 0x3EA4A4A5, 0x3EA6A6A7, 0x3EA8A8A9, 0x3EAAAAAB, 0x3EACACAD, 0x3EAEAEAF,
  0x3EB0B0B1, 0x3EB2B2B3, 0x3EB4B4B5, 0x3EB6B6B7, 0x3EB8B8B9, 0x3EBABABB, 0x3EBCBCBD, 0x3EBEBEBF,
  0x3EC0C0C1, 0x3EC2C2C3, 0x3EC4C4C5, 0x3EC6C6C7, 0x3EC8C8C9, 0x3ECACACB, 0x3ECCCCCD, 0x3ECECECF,
  0x3ED0D0D1, 0x3ED2D2D3, 0x3ED4D4D5, 0x3ED6D6D7, 0x3ED8D8D9, 0x3EDADADB, 0x3EDCDCDD, 0x3EDEDEDF,
  0x3EE0E0E1, 0x3EE2E2E3, 0x3EE4E4E5, 0x3EE6E6E7, 0x3EE8E8E9, 0x3EEAEAEB, 0x3EECECED, 0x3EEEEEEF,
  0x3EF0F0F1, 0x3EF2F2F3, 0x3EF4F4F5, 0x3EF6F6F7, 0x3EF8F8F9, 0x3EFAFAFB, 0x3EFCFCFD, 0x3EFEFEFF]

/-- The codes 128 to 191. -/
def normTable2 : List Nat := [
  0x3F008081, 0x3F018182, 0x3F028283, 0x3F038384, 0x3F048485, 0x3F058586, 0x3F068687, 0x3F078788,
  0x3F088889, 0x3F09898A, 0x3F0A8A8B, 0x3F0B8B8C, 0x3F0C8C8D, 0x3F0D8D8E, 0x3F0E8E8F, 0x3F0F8F90,
  0x3F109091, 0x3F119192, 0x3F129293, 0x3F139394, 0x3F149495, 0x3F159596, 0x3F169697, 0x3F179798,
  0x3F189899, 0x3F19999A, 0x3F1A9A9B, 0x3F1B9B9C, 0x3F1C9C9D, 0x3F1D9D9E, 0x3F1E9E9F, 0x3F1F9FA0,
  0x3F20A0A1, 0x3F21A1A2, 0x3F22A2A3, 0x3F23A3A4, 0x3F24A4A5, 0x3F25A5A6, 0x3F26A6A7, 0x3F27A7A8,
  0x3F28A8A9, 0x3F29A9AA, 0x3F2AAAAB, 0x3F2BABAC, 0x3F2CACAD, 0x3F2DADAE, 0x3F2EAEAF, 0x3F2FAFB0,
  0x3F30B0B1, 0x3F31B1B2, 0x3F32B2B3, 0x3F33B3B4, 0x3F34B4B5, 0x3F35B5B6, 0x3F36B6B7, 0x3F37B7B8,
  0x3F38B8B9, 0x3F39B9BA, 0x3F3ABABB, 0x3F3BBBBC, 0x3F3CBCBD, 0x3F3DBDBE, 0x3F3EBEBF, 0x3F3FBFC0]

/-- The codes 192 to 255. -/
def normTable3 : List Nat := [
  0x3F40C0C1, 0x3F41C1C2, 0x3F42C2C3, 0x3F43C3C4, 0x3F44C4C5, 0x3F45C5C6, 0x3F46C6C7, 0x3F47C7C8,
  0x3F48C8C9, 0x3F49C9CA, 0x3F4ACACB, 0x3F4BCBCC, 0x3F4CCCCD, 0x3F4DCDCE, 0x3F4ECECF, 0x3F4FCFD0,
  0x3F50D0D1, 0x3F51D1D2, 0x3F52D2D3, 0x3F53D3D4, 0x3F54D4D5, 0x3F55D5D6, 0x3F56D6D7, 0x3F57D7D8,
  0x3F58D8D9, 0x3F59D9DA, 0x3F5ADADB, 0x3F5BDBDC, 0x3F5CDCDD, 0x3F5DDDDE, 0x3F5EDEDF, 0x3F5FDFE0,
  0x3F60E0E1, 0x3F61E1E2, 0x3F62E2E3, 0x3F63E3E4, 0x3F64E4E5, 0x3F65E5E6, 0x3F66E6E7, 0x3F67E7E8,
  0x3F68E8E9, 0x3F69E9EA, 0x3F6AEAEB, 0x3F6BEBEC, 0x3F6CECED, 0x3F6DEDEE, 0x3F6EEEEF, 0x3F6FEFF0,
  0x3F70F0F1, 0x3F71F1F2, 0x3F72F2F3, 0x3F73F3F4, 0x3F74F4F5, 0x3F75F5F6, 0x3F76F6F7, 0x3F77F7F8,
  0x3F78F8F9, 0x3F79F9FA, 0x3F7AFAFB, 0x3F7BFBFC, 0x3F7CFCFD, 0x3F7DFDFE, 0x3F7EFEFF, 0x3F800000]

/-- The complete table of `NORM` (rule R49). -/
def normTable : List Nat := normTable0 ++ normTable1 ++ normTable2 ++ normTable3

/-- A pattern the power rules can give: sign 0, and no NaN but `QNAN` (spec/10_state.md rule R13; spec/43_fp_power_unit.md
rules R51, R54). -/
def isPowResult (v : B32) : Bool := !sign v && (!isNaN v || v == qNaN)

/-- The data of every valid slot are what the stages before it can give (spec/10_state.md rule R13, column "fields"; spec/44_clamp_unit.md
rule R61 K1). The data of a slot whose valid bit is 0 are unspecified. -/
def slotsLegal (s : State) : Bool :=
  (!s.v2 || (isNormalised s.s2.r && isNormalised s.s2.g && isNormalised s.s2.b && isNormalised s.s2.a)) &&
  (!s.v3 || (isPowResult s.s3.r && isPowResult s.s3.g && isPowResult s.s3.b && isNormalised s.s3.a)) &&
  (!s.v4 || (s.s4.r ≤ one && s.s4.g ≤ one && s.s4.b ≤ one && isNormalised s.s4.a))

/-- From `s` to `t` every slot has moved on by one with its stage's function applied (spec/40_interface_ops.md rule R35, stages 2 to 5,
written out), and the host's list of bundles is as before. Slot 1 and `GAMMA` are the operation's own. -/
structure SlotsAdvance (s t : State) : Prop where
  valid : t.v2 = s.v1 ∧ t.v3 = s.v2 ∧ t.v4 = s.v3 ∧ t.v5 = s.v4
  slot2 : t.s2 = ⟨norm s.s1.r, norm s.s1.g, norm s.s1.b, norm s.s1.a, s.s1.gm⟩
  slot3 : t.s3 = ⟨pow s.s2.r s.s2.gm, pow s.s2.g s.s2.gm, pow s.s2.b s.s2.gm, s.s2.a⟩
  slot4 : t.s4 = ⟨clamp s.s3.r, clamp s.s3.g, clamp s.s3.b, s.s3.a⟩
  slot5 : t.s5 = ⟨repack s.s4.r s.s4.g s.s4.b s.s4.a⟩
  host : t.pending = s.pending
  clock : t.cycle = s.cycle + 1

/-- `GAMMA` is set before it is used: in the operations, no pixel is accepted before a write of `GAMMA` that no `RESET` has
undone (spec/70_reset_and_hazards.md rule R77). `known` says whether it is set at the start. -/
def setBeforeUse : Bool → List Instr → Bool
  | _, [] => true
  | _, .reset :: is => setBeforeUse false is
  | known, .nop :: is => setBeforeUse known is
  | known, .apply _ :: is => known && setBeforeUse known is
  | _, .setgamma _ :: is => setBeforeUse true is
  | known, .applySetgamma _ _ :: is => known && setBeforeUse true is

/-- The operation the host presents `k` cycles from now. -/
def opAt (s : State) (k : Nat) : Instr := decode (bundleAt s k)

/-- After `n` clock cycles from `s` the machine is in `t` (spec/40_interface_ops.md rule R35). -/
def RunsTo (s : State) (n : Nat) (t : State) : Prop := Host.Core.run Sys2Proof.core n s = .next t

/-- Whether bit `k` of a bundle means anything to the operation it asks for; the other bits are ignored
(spec/30_encoding.md rule R30). -/
def bitMatters (b : Bundle) (k : Nat) : Bool :=
  k == 66 || (!rstOf b && (k == 65 || k == 64 || (cfgWeOf b && 32 ≤ k && k < 64) || (inValidOf b && k < 32)))

end Sys2Proof.Machine
end

