-- ==== Sys2Proof/Certificates/Slice0/Obligations.lean ====
section
/-! DEFINITION. The statements for the provers. Each is a `Prop` named by what it states; OBLIGATIONS.json lists them with the rule of
spec/ each formalises. -/

open Sys2Proof Sys2Proof.Machine

/-! ## Encoding -/

/-- Decoding the canonical bundle of an operation gives the operation back, with every operand at every value. -/
def Obligations.DecodeOfEncodeIsIdentity : Prop := ∀ i : Instr, decode (encode i) = i

/-- spec/30_encoding.md rule R30: the three control bits select the operation, and the operands are the two fields verbatim; the
canonical spellings; a bundle that differs from another in ignored bits only is the same operation. -/
def Obligations.ControlBitsSelectTheOperation : Prop :=
  ∀ b : Bundle,
    (rstOf b = true → decode b = .reset) ∧
    (rstOf b = false → cfgWeOf b = false → inValidOf b = false → decode b = .nop) ∧
    (rstOf b = false → cfgWeOf b = false → inValidOf b = true → decode b = .apply (b.extractLsb' 0 32)) ∧
    (rstOf b = false → cfgWeOf b = true → inValidOf b = false → decode b = .setgamma (b.extractLsb' 32 32)) ∧
    (rstOf b = false → cfgWeOf b = true → inValidOf b = true →
      decode b = .applySetgamma (b.extractLsb' 0 32) (b.extractLsb' 32 32)) ∧
    (∀ c : Bundle, (∀ k, bitMatters b k = true → c.getLsbD k = b.getLsbD k) → decode c = decode b) ∧
    encode .reset = 0x40000000000000000#67 ∧ encode .nop = 0x00000000000000000#67 ∧
    (∀ p, encode (.apply p) = 0x100000000#35 ++ p) ∧ (∀ g, encode (.setgamma g) = 0x2#3 ++ g ++ 0x00000000#32) ∧
    ∀ p g, encode (.applySetgamma p g) = 0x3#3 ++ g ++ p

/-- spec/30_encoding.md rule R30, the canonical spelling: encoding what a bundle decodes to gives the bundle with every ignored bit
set to 0 and every other bit as it was. -/
def Obligations.EncodeOfDecodeClearsIgnoredBits : Prop :=
  ∀ (b : Bundle) (k : Nat), (encode (decode b)).getLsbD k = (b.getLsbD k && bitMatters b k)

/-- Every bundle matches the row of spec/opcode_table.json (its mask and match) of the operation it decodes to, and no other
row. -/
def Obligations.OpcodeTableRowsPartitionBundles : Prop :=
  ∀ b : Bundle,
    (b &&& 0x40000000000000000#67 = 0x40000000000000000#67 ↔ decode b = .reset) ∧
    (b &&& 0x70000000000000000#67 = 0x00000000000000000#67 ↔ decode b = .nop) ∧
    (b &&& 0x70000000000000000#67 = 0x10000000000000000#67 ↔ ∃ p, decode b = .apply p) ∧
    (b &&& 0x70000000000000000#67 = 0x20000000000000000#67 ↔ ∃ g, decode b = .setgamma g) ∧
    (b &&& 0x70000000000000000#67 = 0x30000000000000000#67 ↔ ∃ p g, decode b = .applySetgamma p g)

/-- The words of the vectors V40 to V48 decode to the operations they are given for; a number with a bit above bit 66 is no
bundle. -/
def Obligations.WrittenOutWordsDecode : Prop :=
  decodeTableWord 72 0x100000000FF804000 = some (.apply 0xFF804000#32) ∧
  decodeTableWord 72 0x40000000000000000 = some .reset ∧
  decodeTableWord 72 0x7FFFFFFFFFFFFFFFF = some .reset ∧
  decodeTableWord 72 0x0DEADBEEFCAFEF00D = some .nop ∧
  decodeTableWord 72 0x23F000000CAFEF00D = some (.setgamma 0x3F000000#32) ∧
  decodeTableWord 72 0x33F00000000000080 = some (.applySetgamma 0x00000080#32 0x3F000000#32) ∧
  decodeTableWord 72 0x80000000000000000 = none

/-! ## The step and the five operations -/

/-- A step decodes the bundle on the input ports and executes its operation, on the state in which the host has gone on to the
next bundle of its list; that changes no register of the block. Where the list is empty, the bundle is whatever the host drives
(notes/assumptions/5.md). -/
def Obligations.StepRunsThePresentedOperation : Prop :=
  (∀ (s : State) (b : Bundle) (bs : List Bundle), s.pending = b :: bs →
    step s = exec (decode b) { s with pending := bs }) ∧
  ∀ s : State, s.pending = [] → step s = exec (decode (Config.hostBundle s.cycle)) s

/-- spec/60_exceptions.md rule R66: one outcome, the next state, in every state and for every operation. -/
def Obligations.EveryStepAnswersANextState : Prop :=
  (∀ s : State, ∃ t, step s = .next t) ∧ ∀ (i : Instr) (s : State), ∃ t, exec i s = .next t

/-- spec/40_interface_ops.md rule R36: `RESET` clears every valid bit; `GAMMA` and the slot data are unspecified (nothing is said of
them), and nothing else changes but the number of the cycle. -/
def Obligations.ResetClearsEveryValidBit : Prop :=
  ∀ s : State, ∃ t, exec .reset s = .next t ∧
    t.v1 = false ∧ t.v2 = false ∧ t.v3 = false ∧ t.v4 = false ∧ t.v5 = false ∧
    outValid t = false ∧ drained t = true ∧ t.pending = s.pending ∧ t.cycle = s.cycle + 1

/-- spec/40_interface_ops.md rule R37: `NOP` advances every slot, accepts no pixel and keeps `GAMMA`; slot 1 holds no pixel, so its data
are unspecified. -/
def Obligations.NopAdvancesAndKeepsGamma : Prop :=
  ∀ s : State, ∃ t, exec .nop s = .next t ∧ SlotsAdvance s t ∧ t.v1 = false ∧ t.gamma = s.gamma

/-- spec/40_interface_ops.md rule R38: `APPLY p` advances every slot; slot 1 takes the four codes of `p` and the content of `GAMMA`,
which is kept. -/
def Obligations.ApplyCapturesPixelAndGamma : Prop :=
  ∀ (p : Word) (s : State), ∃ t, exec (.apply p) s = .next t ∧ SlotsAdvance s t ∧ t.v1 = true ∧
    t.s1 = ⟨p.extractLsb' 0 8, p.extractLsb' 8 8, p.extractLsb' 16 8, p.extractLsb' 24 8, s.gamma⟩ ∧ t.gamma = s.gamma

/-- spec/40_interface_ops.md rule R39: `SETGAMMA g` advances every slot, accepts no pixel and writes `g` to `GAMMA` bit for bit. -/
def Obligations.SetgammaWritesGamma : Prop :=
  ∀ (g : B32) (s : State), ∃ t, exec (.setgamma g) s = .next t ∧ SlotsAdvance s t ∧ t.v1 = false ∧ t.gamma = g

/-- spec/40_interface_ops.md rule R40: `APPLY_SETGAMMA p, g` captures `p` with the old content of `GAMMA` and writes `g`. -/
def Obligations.ApplySetgammaCapturesOldGamma : Prop :=
  ∀ (p : Word) (g : B32) (s : State), ∃ t, exec (.applySetgamma p g) s = .next t ∧ SlotsAdvance s t ∧ t.v1 = true ∧
    t.s1 = ⟨p.extractLsb' 0 8, p.extractLsb' 8 8, p.extractLsb' 16 8, p.extractLsb' 24 8, s.gamma⟩ ∧ t.gamma = g

/-- spec/30_encoding.md rule R30: bundles that differ in ignored bits only do the same: a step depends on the canonical spelling of
the bundle. -/
def Obligations.IgnoredBitsHaveNoEffect : Prop :=
  ∀ (s : State) (b c : Bundle), (∀ k, bitMatters b k = true → c.getLsbD k = b.getLsbD k) →
    step (present s c) = step (present s b)

/-- spec/30_encoding.md rule R28: the output bundle is `out_valid` above `pixel_out`, a function of the state; what the host presents
in the same cycle does not change it. Rule R43: what the two ports show. -/
def Obligations.OutputsDependOnTheStateAlone : Prop :=
  ∀ (s : State) (b : Bundle),
    outputs (present s b) = outputs s ∧
    (outputs s).getLsbD 32 = outValid s ∧ (outputs s).extractLsb' 0 32 = pixelOut s ∧
    outValid s = s.v5 ∧ (s.v5 = true → pixelOut s = s.s5.px)

/-! ## Rounding -/

/-- spec/00_scope.md rule R10: `rne32` is `RNE32` of every rational, of either sign. -/
def Obligations.RationalsRoundToNearestEven : Prop :=
  ∀ (neg : Bool) (num den : Nat), 0 < den →
    IsRNE32 ((if neg then -1 else 1) * ((num : ℝ) / den)) (rne32 neg num den)

/-- spec/00_scope.md rule R10: `rint` is the nearest integer, and the even one of two that are equally near. -/
def Obligations.IntegersRoundToNearestEven : Prop :=
  ∀ num den : Nat, 0 < den →
    |(rint num den : ℚ) - (num : ℚ) / den| ≤ 1 / 2 ∧
    (|(rint num den : ℚ) - (num : ℚ) / den| = 1 / 2 → rint num den % 2 = 0)

/-- spec/00_scope.md rule R10: "the order of the patterns as unsigned integers is the order of their values", for finite patterns of
sign 0. -/
def Obligations.PatternOrderIsValueOrder : Prop :=
  ∀ a b : B32, sign a = false → sign b = false → isFinite a = true → isFinite b = true →
    (a ≤ b ↔ val a ≤ val b)

/-! ## The stages -/

/-- spec/41_rgba_unpack.md rule R46: the four codes are the four bytes, and together they are the pixel. -/
def Obligations.UnpackIsABijection : Prop :=
  (∀ (p : Word) (g : B32), unpack p g =
    ⟨p.extractLsb' 0 8, p.extractLsb' 8 8, p.extractLsb' 16 8, p.extractLsb' 24 8, g⟩) ∧
  (∀ p : Word, alphaOf p ++ blueOf p ++ greenOf p ++ redOf p = p) ∧
  ∀ r g b a : Code, redOf (packPixel r g b a) = r ∧ greenOf (packPixel r g b a) = g ∧
    blueOf (packPixel r g b a) = b ∧ alphaOf (packPixel r g b a) = a

/-- spec/42_channel_normalizer.md rule R49: the complete table of `NORM`. -/
def Obligations.NormMatchesTheTable : Prop :=
  ∀ c : Code, (norm c).toNat = normTable.getD c.toNat 0

/-- spec/42_channel_normalizer.md rule R48: `NORM(c) = RNE32(c / 255)`; its corner cases; for 126 codes the product with the rounded
reciprocal is another pattern, and for 254 codes the quotient is inexact. -/
def Obligations.NormIsTheRoundedQuotient : Prop :=
  (∀ c : Code, IsRNE32 ((c.toNat : ℝ) / 255) (norm c)) ∧
  norm 0#8 = pZero ∧ norm 255#8 = one ∧
  (∀ c : Code, sign (norm c) = false ∧ isFinite (norm c) = true ∧ isSubnormal (norm c) = false) ∧
  ((List.range 256).filter fun c => norm (BitVec.ofNat 8 c) != rne32 false (c * 0x808081) (2 ^ 31)).length = 126 ∧
  ((List.range 256).filter fun c => val (norm (BitVec.ofNat 8 c)) != (c : ℚ) / 255).length = 254

/-- spec/42_channel_normalizer.md rule R50, N1 to N4. -/
def Obligations.NormProperties : Prop :=
  (∀ c c' : Code, c < c' → norm c < norm c' ∧ val (norm c) < val (norm c')) ∧
  (∀ x : B32, isNormalised x = true ↔ ∃ c, norm c = x) ∧
  norm 0#8 = pZero ∧ norm 255#8 = one ∧
  (∀ c : Code, c ≠ 0#8 → c ≠ 255#8 → 0x3B808081#32 ≤ norm c ∧ norm c ≤ 0x3F7EFEFF#32 ∧
    (c.toNat : ℚ) / 255 < val (norm c) ∧ val (norm c) - (c.toNat : ℚ) / 255 < (c.toNat : ℚ) / 255 / 2 ^ 24 ∧
    val (norm c) - (c.toNat : ℚ) / 255 ≤ (c.toNat : ℚ) / 255 * (592 / 10 ^ 10)) ∧
  ∀ c : Code, packProduct (norm c) = rne32 false c.toNat 1 ∧ val (rne32 false c.toNat 1) = c.toNat

/-- spec/43_fp_power_unit.md rules R52 to R56: the special cases, for every base of `X`. -/
def Obligations.PowSpecialCases : Prop :=
  ∀ x y : B32, isNormalised x = true →
    (isZero y = true → pow x y = one) ∧
    (x = one → pow x y = one) ∧
    (isNaN y = true → x ≠ one → pow x y = qNaN) ∧
    (x = pZero → isZero y = false → isNaN y = false → sign y = false → pow x y = pZero) ∧
    (x = pZero → isZero y = false → isNaN y = false → sign y = true → pow x y = pInf) ∧
    (x ≠ pZero → x ≠ one → y = pInf → pow x y = pZero) ∧
    (x ≠ pZero → x ≠ one → y = nInf → pow x y = pInf)

/-- spec/43_fp_power_unit.md rule R57: in the general case `POW(x, y)` is the exact real power, rounded once. -/
def Obligations.PowIsTheCorrectlyRoundedPower : Prop :=
  ∀ x y : B32, isInnerBase x = true → isInnerExponent y = true →
    IsRNE32 ((val x : ℝ) ^ ((val y : ℝ))) (pow x y)

/-- spec/43_fp_power_unit.md rule R58: the general case has the properties PW1 to PW6, and `POW` takes it there (PW0: it is a function
of the two operands). -/
def Obligations.PowFnHasThePowerProperties : Prop :=
  PowerProperties powFn ∧
  ∀ x y : B32, isInnerBase x = true → isInnerExponent y = true →
    pow x y = powFn x y ∧ IsRNE32 ((val x : ℝ) ^ ((val y : ℝ))) (powFn x y)

/-- spec/43_fp_power_unit.md rule R59: what a gamma does to a code, by class of gamma. -/
def Obligations.ChanByClassOfGamma : Prop :=
  ∀ (c : Code) (g : B32),
    (isZero g = true → chan c g = 255#8) ∧
    (isFinite g = true → isZero g = false → sign g = false →
      (c = 0#8 → chan c g = 0#8) ∧ (c = 255#8 → chan c g = 255#8) ∧
      (c ≠ 0#8 → c ≠ 255#8 →
        ∃ z, IsRNE32 ((val (norm c) : ℝ) ^ ((val g : ℝ))) z ∧ chan c g = pack z) ∧
      ∀ c', c ≤ c' → chan c g ≤ chan c' g) ∧
    (g = pInf → (c ≠ 255#8 → chan c g = 0#8) ∧ (c = 255#8 → chan c g = 255#8)) ∧
    (isFinite g = true → isZero g = false → sign g = true → chan c g = 255#8) ∧
    (g = nInf → chan c g = 255#8) ∧
    (isNaN g = true → (c ≠ 255#8 → chan c g = 0#8) ∧ (c = 255#8 → chan c g = 255#8))

/-- spec/43_fp_power_unit.md rule R59, the two limits of the positive row: a gamma up to 5e-9, every subnormal among them, takes every
code but 0 to 255; a finite gamma from 1590 on takes every code but 255 to 0. -/
def Obligations.TinyAndLargeGammas : Prop :=
  ∀ (c : Code) (g : B32), isZero g = false →
    (g ≤ 0x31ABCC77#32 → c ≠ 0#8 → chan c g = 255#8) ∧
    (0x44C6C000#32 ≤ g → g ≤ 0x7F7FFFFF#32 → c ≠ 255#8 → chan c g = 0#8)

/-- spec/44_clamp_unit.md rule R60: the five cases of `CLAMP`, the first that matches. -/
def Obligations.ClampCases : Prop :=
  ∀ v : B32,
    (isNaN v = true → clamp v = pZero) ∧
    (isNaN v = false → sign v = true → clamp v = pZero) ∧
    (isNaN v = false → sign v = false → isZero v = true → clamp v = pZero) ∧
    (isNaN v = false → sign v = false → isZero v = false → one ≤ v → clamp v = one) ∧
    (isNaN v = false → sign v = false → isZero v = false → v < one → clamp v = v)

/-- spec/44_clamp_unit.md rule R61, K1 to K5. -/
def Obligations.ClampProperties : Prop :=
  (∀ v : B32, clamp v ≤ one ∧ sign (clamp v) = false ∧ isNaN (clamp v) = false ∧ clamp v ≠ nZero ∧
    0 ≤ val (clamp v) ∧ val (clamp v) ≤ 1) ∧
  (∀ v : B32, clamp (clamp v) = clamp v) ∧
  (∀ v w : B32, isFinite v = true → isFinite w = true → val v ≤ val w → val (clamp v) ≤ val (clamp w)) ∧
  (clamp nInf = pZero ∧ clamp pInf = one) ∧
  (∀ v : B32, isFinite v = true → sign v = false → 0 ≤ val v → val v ≤ 1 → clamp v = v) ∧
  (∀ x y : B32, isNormalised x = true → clamp (pow x y) ≠ pow x y →
    (pow x y = qNaN ∧ clamp (pow x y) = pZero) ∨
    (sign y = true ∧ isNaN (pow x y) = false ∧ one < pow x y ∧ clamp (pow x y) = one))

/-- spec/45_rgba_repack.md rule R62: the product by 255 is rounded once to binary32, and `PACK` is the integer nearest to it, ties to
even, saturated to 0 to 255. -/
def Obligations.PackIsTwoRoundings : Prop :=
  (∀ v : B32, isFinite v = true → IsRNE32 ((val v : ℝ) * 255) (packProduct v)) ∧
  (∀ v : B32, isInf v = true → packProduct v = v) ∧
  ∀ v : B32,
    (isNaN v = true → pack v = 0#8) ∧
    (isNaN v = false → (sign (packProduct v) = true ∨ isZero (packProduct v) = true) → pack v = 0#8) ∧
    (isNaN v = false → sign (packProduct v) = false → f255 ≤ packProduct v → pack v = 255#8) ∧
    (isNaN v = false → sign (packProduct v) = false → isZero (packProduct v) = false → packProduct v < f255 →
      |((pack v).toNat : ℚ) - val (packProduct v)| ≤ 1 / 2 ∧
      (|((pack v).toNat : ℚ) - val (packProduct v)| = 1 / 2 → (pack v).toNat % 2 = 0))

/-- `PACK` is nondecreasing on the patterns of sign 0, infinity included (it rests on the two roundings being monotone). -/
def Obligations.PackIsMonotone : Prop :=
  ∀ v w : B32, w ≤ pInf → v ≤ w → pack v ≤ pack w

/-- spec/45_rgba_repack.md rule R63: `REPACK` puts each lane's code into the lane's own 8 bits. -/
def Obligations.RepackKeepsLanesApart : Prop :=
  ∀ zr zg zb xa : B32,
    (repack zr zg zb xa).extractLsb' 0 8 = pack zr ∧ (repack zr zg zb xa).extractLsb' 8 8 = pack zg ∧
    (repack zr zg zb xa).extractLsb' 16 8 = pack zb ∧ (repack zr zg zb xa).extractLsb' 24 8 = pack xa

/-- spec/45_rgba_repack.md rule R64: the alpha lane gives every code back, the rounded product by 255 being the pattern of the code
itself, and so does a colour lane at gamma 1.0. -/
def Obligations.AlphaRoundTripAndIdentityLane : Prop :=
  (∀ c : Code, alphaLane c = c ∧ pack (norm c) = c ∧
    packProduct (norm c) = rne32 false c.toNat 1 ∧ val (packProduct (norm c)) = c.toNat) ∧
  ∀ c : Code, chan c one = c

/-! ## The function -/

/-- spec/40_interface_ops.md rules R41 and R42: `apply` is the five stages in their order, and works lane by lane, R, G and B by one
function of the code and the gamma, alpha by another of the code alone. -/
def Obligations.ApplyWorksLaneByLane : Prop :=
  (∀ (p : Word) (g : B32), applyPixel p g =
    repack (clamp (pow (norm (p.extractLsb' 0 8)) g)) (clamp (pow (norm (p.extractLsb' 8 8)) g))
      (clamp (pow (norm (p.extractLsb' 16 8)) g)) (norm (p.extractLsb' 24 8))) ∧
  (∀ (c : Code) (g : B32), chan c g = pack (clamp (pow (norm c) g)) ∧ alphaLane c = pack (norm c)) ∧
  ∀ (p : Word) (g : B32), applyPixel p g =
    packPixel (chan (redOf p) g) (chan (greenOf p) g) (chan (blueOf p) g) (alphaLane (alphaOf p))

/-- spec/40_interface_ops.md rule R45 items 1 and 3: alpha comes out unchanged for every gamma, and at gamma 1.0 the whole pixel
does. -/
def Obligations.AlphaInvarianceAndIdentity : Prop :=
  (∀ (p : Word) (g : B32), (applyPixel p g).extractLsb' 24 8 = p.extractLsb' 24 8) ∧
  (∀ p : Word, applyPixel p one = p) ∧ ∀ p : Word, applyPixel (applyPixel p one) one = p

/-- spec/40_interface_ops.md rule R45 items 4 and 5: monotonicity in the code for every gamma that is not a NaN, and the end
points for every positive one. -/
def Obligations.ChanIsMonotoneWithEndPoints : Prop :=
  (∀ (c c' : Code) (g : B32), isNaN g = false → c ≤ c' →
    (sign g = false → isZero g = false → chan c g ≤ chan c' g) ∧
    ((sign g = true ∨ isZero g = true) → chan c g = 255#8)) ∧
  ∀ g : B32, isNaN g = false → sign g = false → isZero g = false → chan 0#8 g = 0#8 ∧ chan 255#8 g = 255#8

/-- spec/43_fp_power_unit.md rule R58: with a power unit that is not the reference but has PW1 to PW5, a colour lane keeps every
code at gamma 1.0, the order of the codes and the end points at every positive gamma (+infinity included), gives 255 at zero and negative
gammas, and 0 (255 for code 255) at NaN gammas. The alpha lane meets no power unit, and is not spoken of here. -/
def Obligations.AnyPowerUnitKeepsThePortProperties : Prop :=
  ∀ fn : B32 → B32 → B32, PowerProperties fn →
    (∀ c : Code, chanWith fn c one = c) ∧
    (∀ (c c' : Code) (g : B32), isNaN g = false → sign g = false → isZero g = false → c ≤ c' →
      chanWith fn c g ≤ chanWith fn c' g) ∧
    (∀ (c : Code) (g : B32), isNaN g = false → (sign g = true ∨ isZero g = true) → chanWith fn c g = 255#8) ∧
    (∀ (c : Code) (g : B32), isNaN g = true → chanWith fn c g = if c = 255#8 then 255#8 else 0#8) ∧
    ∀ g : B32, isNaN g = false → sign g = false → isZero g = false →
      chanWith fn 0#8 g = 0#8 ∧ chanWith fn 255#8 g = 255#8

/-! ## The machine over many cycles -/

/-- spec/10_state.md rule R13: every step, from any state, keeps the data of the valid slots legal. -/
def Obligations.StepKeepsSlotsLegal : Prop :=
  ∀ s t : State, slotsLegal s = true → step s = .next t → slotsLegal t = true

/-- spec/10_state.md rule R18, spec/70_reset_and_hazards.md rule R75: after reset every valid bit is 0, so the slots are legal and no
result is shown. -/
def Obligations.ResetStateIsDrainedAndLegal : Prop :=
  drained State.reset = true ∧ slotsLegal State.reset = true ∧ outValid State.reset = false ∧ shown State.reset = none

/-- spec/40_interface_ops.md rule R44 for `LATENCY = 5`: whatever the state at power-on was, what is shown in cycle `u >= 5` is
the pixel accepted in cycle `u - 5`, with the gamma of that cycle, unless a `RESET` came in between. -/
def Obligations.PortBehaviourOfTheReference : Prop :=
  ∀ (s : State) (u : Nat), 5 ≤ u → ∃ t v, RunsTo s (u - 5) t ∧ RunsTo s u v ∧
    (outValid v = true ↔
      (rstOf (bundleAt s (u - 5)) = false ∧ inValidOf (bundleAt s (u - 5)) = true ∧
        ∀ j, u - 5 < j → j < u → rstOf (bundleAt s j) = false)) ∧
    (outValid v = true → pixelOut v = applyPixel (pixelInOf (bundleAt s (u - 5))) t.gamma)

/-- spec/40_interface_ops.md rule R44, the first cycles: in a cycle `u < 5` nothing is shown if some cycle before it was a
`RESET`. -/
def Obligations.NothingShownSoonAfterReset : Prop :=
  ∀ (s : State) (u j : Nat), u < 5 → j < u → rstOf (bundleAt s j) = true →
    ∃ v, RunsTo s u v ∧ outValid v = false

/-- spec/40_interface_ops.md rule R44: the content of `GAMMA` in cycle `t` is the `cfg_wdata` of the latest cycle with `rst = 0` and
`cfg_we = 1` before it, if no `RESET` came after that write. -/
def Obligations.GammaIsTheLatestWrite : Prop :=
  ∀ (s : State) (w t : Nat), w < t → rstOf (bundleAt s w) = false → cfgWeOf (bundleAt s w) = true →
    (∀ j, w < j → j < t → rstOf (bundleAt s j) = false ∧ cfgWeOf (bundleAt s j) = false) →
    ∃ v, RunsTo s t v ∧ v.gamma = cfgWdataOf (bundleAt s w)

/-- spec/40_interface_ops.md rule R39, R12: `GAMMA` is written by the two operations that write it and left unspecified by
`RESET`; no run of other operations changes it. -/
def Obligations.GammaStaysUntilWritten : Prop :=
  ∀ (s : State) (n : Nat),
    (∀ j, j < n → rstOf (bundleAt s j) = false ∧ cfgWeOf (bundleAt s j) = false) →
    ∃ v, RunsTo s n v ∧ v.gamma = s.gamma

/-- spec/40_interface_ops.md rule R44: the reference structure, stage by stage, is at its ports the block that finishes a pixel at
acceptance and delays the word by five cycles. -/
def Obligations.ReferenceRefinesTheDelayLine : Prop :=
  (∀ s : State, shown s = (asPipe s).shown) ∧
  ∀ s t : State, step s = .next t → asPipe t = (asPipe s).clock (decode (presented s))

/-- spec/40_interface_ops.md rule R44 for any `LATENCY >= 1`, from any content of the slots. -/
def Obligations.PortBehaviourForAnyLatency : Prop :=
  ∀ (d : PixelPipe) (ops : Nat → Instr) (u : Nat), 1 ≤ d.line.length →
    (d.line.length ≤ u → ∀ w : Word,
      ((d.after ops u).shown = some w ↔
        (∃ p, (ops (u - d.line.length)).pixel? = some p ∧
          w = applyPixel p (gammaContent d.gamma d.cycle ops (u - d.line.length))) ∧
        ∀ j, u - d.line.length < j → j < u → ops j ≠ .reset)) ∧
    (u < d.line.length → (∃ j, j < u ∧ ops j = .reset) → (d.after ops u).shown = none)

/-- spec/70_reset_and_hazards.md rule R81: without a `RESET`, `LATENCY` only shifts the cycle in which each result appears. -/
def Obligations.LatencyOnlyShiftsResults : Prop :=
  ∀ (d e : PixelPipe) (ops : Nat → Instr), 1 ≤ d.line.length → 1 ≤ e.line.length → d.gamma = e.gamma →
    (∀ j, ops j ≠ .reset) →
    ∀ t, (d.after ops (t + d.line.length)).shown = (e.after ops (t + e.line.length)).shown

/-- spec/70_reset_and_hazards.md rule R80: a `RESET` drops every pixel in flight: nothing is shown in the five cycles after it,
whatever the host presents. -/
def Obligations.ResetDropsPixelsInFlight : Prop :=
  ∀ (s : State) (n : Nat), rstOf (presented s) = true → 1 ≤ n → n ≤ 5 → ∃ v, RunsTo s n v ∧ outValid v = false

/-- spec/70_reset_and_hazards.md rule R76: after an `APPLY` the block is not drained for five cycles, and then it is, if no later
pixel was accepted; no `RESET` in between. -/
def Obligations.DrainedSixCyclesAfterTheLastPixel : Prop :=
  ∀ (s : State) (n : Nat), (opAt s 0).pixel?.isSome = true → (∀ j, 0 < j → j < n → rstOf (bundleAt s j) = false) →
    (1 ≤ n → n ≤ 5 → ∃ v, RunsTo s n v ∧ drained v = false) ∧
    (6 ≤ n → (∀ j, 0 < j → j < n → (opAt s j).pixel? = none) → ∃ v, RunsTo s n v ∧ drained v = true)

/-- spec/30_encoding.md rule R34, spec/70_reset_and_hazards.md rule R76: one processing pass shows the result of every one of its pixels,
in order, one per cycle from the sixth cycle on, computed with its gamma, and then the block is drained. -/
def Obligations.PassShowsEveryResultInOrder : Prop :=
  ∀ (s : State) (g : B32) (pixels : List Word) (rest : List Bundle),
    s.pending = traceBundles Config.latency [.pass g pixels] ++ rest →
    (∀ (k : Nat) (p : Word), pixels[k]? = some p →
      ∃ v, RunsTo s (k + 6) v ∧ outValid v = true ∧ pixelOut v = applyPixel p g) ∧
    ∃ v, RunsTo s (pixels.length + 6) v ∧ drained v = true ∧ v.gamma = g

/-- spec/70_reset_and_hazards.md rule R82, spec/93_implementation_defined.md U1: two drained blocks that differ in what `GAMMA`, the slot
data and the free values are show the same to a host that sets the gamma before it uses it, after every reset. -/
def Obligations.UnspecifiedGammaIsNeverSeen : Prop :=
  ∀ s t : State, drained s = true → drained t = true → s.pending = t.pending →
    setBeforeUse false (s.pending.map decode) = true →
    ∀ n, n ≤ s.pending.length → ∃ s' t', RunsTo s n s' ∧ RunsTo t n t' ∧ shown s' = shown t'
end

