-- ==== Sys2Proof/Laws/Decode.lean ====
section
/-! SUPPORT. The fields of a bundle built from its parts, and which fields the decoder reads. -/

namespace Sys2Proof

/-- The bits of a bundle built from its parts: `pixel_in`, then `cfg_wdata`, then the control bits. -/
theorem bundle_getLsbD (ctl : BitVec 3) (g : B32) (p : Word) (k : Nat) :
    (bundle ctl g p).getLsbD k =
      if k < 32 then p.getLsbD k else if k < 64 then g.getLsbD (k - 32) else ctl.getLsbD (k - 64) := by
  unfold bundle
  show (ctl ++ g ++ p : BitVec (3 + 32 + 32)).getLsbD k = _
  rw [BitVec.getLsbD_append, BitVec.getLsbD_append]
  by_cases h1 : k < 32
  · simp [h1]
  · by_cases h2 : k < 64
    · have : k - 32 < 32 := by omega
      simp [h1, h2, this]
    · have h3 : ¬ k - 32 < 32 := by omega
      simp [h1, h2, h3, Nat.sub_sub]

@[simp] theorem rstOf_bundle (ctl : BitVec 3) (g : B32) (p : Word) : rstOf (bundle ctl g p) = ctl.getLsbD 2 := by
  rw [rstOf, bundle_getLsbD]; norm_num

@[simp] theorem cfgWeOf_bundle (ctl : BitVec 3) (g : B32) (p : Word) : cfgWeOf (bundle ctl g p) = ctl.getLsbD 1 := by
  rw [cfgWeOf, bundle_getLsbD]; norm_num

@[simp] theorem inValidOf_bundle (ctl : BitVec 3) (g : B32) (p : Word) : inValidOf (bundle ctl g p) = ctl.getLsbD 0 := by
  rw [inValidOf, bundle_getLsbD]; norm_num

@[simp] theorem cfgWdataOf_bundle (ctl : BitVec 3) (g : B32) (p : Word) : cfgWdataOf (bundle ctl g p) = g := by
  apply BitVec.eq_of_getLsbD_eq
  intro i hi
  have h2 : 32 + i < 64 := by omega
  simp [cfgWdataOf, bundle_getLsbD, hi, h2]

@[simp] theorem pixelInOf_bundle (ctl : BitVec 3) (g : B32) (p : Word) : pixelInOf (bundle ctl g p) = p := by
  apply BitVec.eq_of_getLsbD_eq
  intro i hi
  simp [pixelInOf, bundle_getLsbD, hi]

/-- A bundle is built from its control bits and its two fields. -/
theorem eq_bundle (b : Bundle) : b = bundle (b.extractLsb' 64 3) (cfgWdataOf b) (pixelInOf b) := by
  apply BitVec.eq_of_getLsbD_eq
  intro i hi
  rw [bundle_getLsbD]
  by_cases h1 : i < 32
  · simp [h1, pixelInOf]
  · by_cases h2 : i < 64
    · have h3 : i - 32 < 32 := by omega
      have h4 : 32 + (i - 32) = i := by omega
      simp [h1, h2, h3, h4, cfgWdataOf]
    · have h3 : i - 64 < 3 := by omega
      have h4 : 64 + (i - 64) = i := by omega
      simp [h1, h2, h3, h4]

/-- Which operation a bundle asks for, said of the fields it is read from. -/
theorem decode_eq_reset_iff (b : Bundle) : decode b = .reset ↔ rstOf b = true := by
  unfold decode
  cases rstOf b <;> cases cfgWeOf b <;> cases inValidOf b <;> simp

/-- A pixel is accepted exactly when `rst = 0` and `in_valid = 1`, and it is `pixel_in`. -/
theorem decode_pixel? (b : Bundle) :
    (decode b).pixel? = if !rstOf b && inValidOf b then some (pixelInOf b) else none := by
  unfold decode
  cases rstOf b <;> cases cfgWeOf b <;> cases inValidOf b <;> simp [Instr.pixel?]

/-- `GAMMA` is written exactly when `rst = 0` and `cfg_we = 1`, with `cfg_wdata`. -/
theorem decode_gamma? (b : Bundle) :
    (decode b).gamma? = if !rstOf b && cfgWeOf b then some (cfgWdataOf b) else none := by
  unfold decode
  cases rstOf b <;> cases cfgWeOf b <;> cases inValidOf b <;> simp [Instr.gamma?]

end Sys2Proof
end

