-- ==== Sys2Proof/Laws/State.lean ====
section
/-! SUPPORT. One lemma per field for each update of the state: the edge of a cycle without and with `rst`, the host's advance
and the host's presenting of a bundle. Later proofs cite these and unfold no record. -/

namespace Sys2Proof.Machine

section
variable (s : State) (e : Option Word) (w : Option B32) (b : Bundle)

@[simp] theorem advance_gamma : (advance s e w).gamma = w.getD s.gamma := rfl
@[simp] theorem advance_v1 : (advance s e w).v1 = e.isSome := rfl
@[simp] theorem advance_v2 : (advance s e w).v2 = s.v1 := rfl
@[simp] theorem advance_v3 : (advance s e w).v3 = s.v2 := rfl
@[simp] theorem advance_v4 : (advance s e w).v4 = s.v3 := rfl
@[simp] theorem advance_v5 : (advance s e w).v5 = s.v4 := rfl
@[simp] theorem advance_s1 : (advance s e w).s1 = stage1 e s.gamma s.cycle := rfl
@[simp] theorem advance_s2 : (advance s e w).s2 = stage2 s.s1 := rfl
@[simp] theorem advance_s3 : (advance s e w).s3 = stage3 s.s2 := rfl
@[simp] theorem advance_s4 : (advance s e w).s4 = stage4 s.s3 := rfl
@[simp] theorem advance_s5 : (advance s e w).s5 = stage5 s.s4 := rfl
@[simp] theorem advance_cycle : (advance s e w).cycle = s.cycle + 1 := rfl
@[simp] theorem advance_pending : (advance s e w).pending = s.pending := rfl

@[simp] theorem resetEdge_gamma : (resetEdge s).gamma = Config.openWord .gammaAfterReset s.cycle := rfl
@[simp] theorem resetEdge_v1 : (resetEdge s).v1 = false := rfl
@[simp] theorem resetEdge_v2 : (resetEdge s).v2 = false := rfl
@[simp] theorem resetEdge_v3 : (resetEdge s).v3 = false := rfl
@[simp] theorem resetEdge_v4 : (resetEdge s).v4 = false := rfl
@[simp] theorem resetEdge_v5 : (resetEdge s).v5 = false := rfl
@[simp] theorem resetEdge_cycle : (resetEdge s).cycle = s.cycle + 1 := rfl
@[simp] theorem resetEdge_pending : (resetEdge s).pending = s.pending := rfl

@[simp] theorem hostAdvance_gamma : (hostAdvance s).gamma = s.gamma := rfl
@[simp] theorem hostAdvance_v1 : (hostAdvance s).v1 = s.v1 := rfl
@[simp] theorem hostAdvance_v2 : (hostAdvance s).v2 = s.v2 := rfl
@[simp] theorem hostAdvance_v3 : (hostAdvance s).v3 = s.v3 := rfl
@[simp] theorem hostAdvance_v4 : (hostAdvance s).v4 = s.v4 := rfl
@[simp] theorem hostAdvance_v5 : (hostAdvance s).v5 = s.v5 := rfl
@[simp] theorem hostAdvance_s1 : (hostAdvance s).s1 = s.s1 := rfl
@[simp] theorem hostAdvance_s2 : (hostAdvance s).s2 = s.s2 := rfl
@[simp] theorem hostAdvance_s3 : (hostAdvance s).s3 = s.s3 := rfl
@[simp] theorem hostAdvance_s4 : (hostAdvance s).s4 = s.s4 := rfl
@[simp] theorem hostAdvance_s5 : (hostAdvance s).s5 = s.s5 := rfl
@[simp] theorem hostAdvance_cycle : (hostAdvance s).cycle = s.cycle := rfl
@[simp] theorem hostAdvance_pending : (hostAdvance s).pending = s.pending.tail := rfl

@[simp] theorem present_gamma : (present s b).gamma = s.gamma := rfl
@[simp] theorem present_v1 : (present s b).v1 = s.v1 := rfl
@[simp] theorem present_v2 : (present s b).v2 = s.v2 := rfl
@[simp] theorem present_v3 : (present s b).v3 = s.v3 := rfl
@[simp] theorem present_v4 : (present s b).v4 = s.v4 := rfl
@[simp] theorem present_v5 : (present s b).v5 = s.v5 := rfl
@[simp] theorem present_s1 : (present s b).s1 = s.s1 := rfl
@[simp] theorem present_s2 : (present s b).s2 = s.s2 := rfl
@[simp] theorem present_s3 : (present s b).s3 = s.s3 := rfl
@[simp] theorem present_s4 : (present s b).s4 = s.s4 := rfl
@[simp] theorem present_s5 : (present s b).s5 = s.s5 := rfl
@[simp] theorem present_cycle : (present s b).cycle = s.cycle := rfl
@[simp] theorem present_pending : (present s b).pending = b :: s.pending.tail := rfl
@[simp] theorem presented_present : presented (present s b) = b := rfl
@[simp] theorem hostAdvance_present : hostAdvance (present s b) = hostAdvance s := rfl

end

end Sys2Proof.Machine
end

