-- ==== Sys2Proof/Laws/Ops.lean ====
section
/-! SUPPORT. What each shared operation over the state can do, said once: an operation is the edge of `RESET` or the common edge,
a step is the operation of the bundle presented, and the list of bundles moves on by one. -/

namespace Sys2Proof.Machine

/-- What an operation does: the edge of `RESET`, or the common clock edge with the pixel it accepts and the value it writes. -/
theorem exec_eq (i : Instr) (s : State) :
    exec i s = .next (if i = .reset then resetEdge s else advance s i.pixel? i.gamma?) := by
  cases i <;> rfl

/-- What a step does. -/
theorem step_eq (s : State) :
    step s = .next (if decode (presented s) = .reset then resetEdge (hostAdvance s)
      else advance (hostAdvance s) (decode (presented s)).pixel? (decode (presented s)).gamma?) :=
  exec_eq _ _

/-- Every step takes the host one bundle further and the cycle number up by one, whatever the operation. -/
theorem step_pending {s t : State} (h : step s = .next t) : t.pending = s.pending.tail ∧ t.cycle = s.cycle + 1 := by
  rw [step_eq] at h
  injection h with h
  subst h
  split <;> simp

/-- What the host presents `k` cycles after a step is what it presented `k + 1` cycles from the state before. -/
theorem bundleAt_step {s t : State} (h : step s = .next t) (k : Nat) : bundleAt t k = bundleAt s (k + 1) := by
  obtain ⟨hp, hc⟩ := step_pending h
  unfold bundleAt
  rw [hp, hc, show s.cycle + 1 + k = s.cycle + (k + 1) by omega]
  cases s.pending <;> rfl

/-- The first step of a run of the host's interface, for any machine. -/
theorem core_run_succ (M : Host.Core) {s t : M.State} (h : M.step s = .next t) (n : Nat) :
    M.run (n + 1) s = M.run n t := by
  simp only [Host.Core.run, h]

/-- A run of `n + 1` cycles is one step and a run of `n` cycles. -/
theorem run_succ {s t : State} (h : step s = .next t) (n : Nat) :
    Host.Core.run Sys2Proof.core (n + 1) s = Host.Core.run Sys2Proof.core n t :=
  core_run_succ Sys2Proof.core h n

/-- Every run of every length answers a next state. -/
theorem run_answers (n : Nat) : ∀ s : State, ∃ t, Host.Core.run Sys2Proof.core n s = .next t := by
  induction n with
  | zero => intro s; exact ⟨s, rfl⟩
  | succ n ih =>
    intro s
    rw [run_succ (step_eq s)]
    exact ih _

/-- The length of a delay line, its `LATENCY`, never changes. -/
theorem PixelPipe.after_length (d : PixelPipe) (ops : Nat → Instr) (t : Nat) :
    (d.after ops t).line.length = d.line.length := by
  induction t with
  | zero => rfl
  | succ t ih => unfold PixelPipe.after PixelPipe.clock; cases ops t <;> simp [PixelPipe.shift, ih]

end Sys2Proof.Machine
end

