-- ==== Sys2Proof/Laws/PerInstr.lean ====
section
/-! SUPPORT. Statements about every operation as syntax, one lemma per operation. -/

namespace Sys2Proof.Laws

/-- The control bits `{rst, cfg_we, in_valid}` of the canonical bundle are the ones the operation map gives the operation
(spec/30_encoding.md rule R30), and the operation is well formed. -/
def ControlBits.Statement : Instr → Prop
  | .reset => Instr.wellFormed .reset = true ∧ rstOf (encode .reset) = true
  | .nop => Instr.wellFormed .nop = true ∧
      rstOf (encode .nop) = false ∧ cfgWeOf (encode .nop) = false ∧ inValidOf (encode .nop) = false
  | .apply p => Instr.wellFormed (.apply p) = true ∧
      rstOf (encode (.apply p)) = false ∧ cfgWeOf (encode (.apply p)) = false ∧ inValidOf (encode (.apply p)) = true
  | .setgamma g => Instr.wellFormed (.setgamma g) = true ∧
      rstOf (encode (.setgamma g)) = false ∧ cfgWeOf (encode (.setgamma g)) = true ∧
      inValidOf (encode (.setgamma g)) = false
  | .applySetgamma p g => Instr.wellFormed (.applySetgamma p g) = true ∧
      rstOf (encode (.applySetgamma p g)) = false ∧ cfgWeOf (encode (.applySetgamma p g)) = true ∧
      inValidOf (encode (.applySetgamma p g)) = true

theorem ControlBits.reset : ControlBits.Statement .reset := by simp [Statement, encode, Instr.wellFormed]

theorem ControlBits.nop : ControlBits.Statement .nop := by simp [Statement, encode, Instr.wellFormed]

theorem ControlBits.apply (p : Word) : ControlBits.Statement (.apply p) := by
  simp [Statement, encode, Instr.wellFormed]

theorem ControlBits.setgamma (g : B32) : ControlBits.Statement (.setgamma g) := by
  simp [Statement, encode, Instr.wellFormed]

theorem ControlBits.applySetgamma (p : Word) (g : B32) : ControlBits.Statement (.applySetgamma p g) := by
  simp [Statement, encode, Instr.wellFormed]

end Sys2Proof.Laws
end

