-- ==== Sys2Proof/Laws/Power.lean ====
section
/-! SUPPORT. The power unit's comparison is exact: the enclosures enclose, so what they decide is what the exact comparison of the
integer powers says. -/

namespace Sys2Proof.Machine

@[simp] theorem forceNat_eq {α : Type} (n : Nat) (k : Nat → α) : forceNat n k = k n := by
  cases n <;> rfl

@[simp] theorem force_eq {α : Type} (a : Scaled) (k : Scaled → α) : Scaled.force a k = k a := by
  simp [Scaled.force]

@[simp] theorem mul_toNat (a b : Scaled) : (a.mul b).toNat = a.toNat * b.toNat := by
  simp only [Scaled.mul, Scaled.toNat, pow_add]
  ring

theorem down_toNat_le (a : Scaled) : a.down.toNat ≤ a.toNat := by
  simp only [Scaled.down, forceNat_eq, Scaled.toNat, Nat.shiftRight_eq_div_pow, pow_add]
  calc a.m / 2 ^ excessBits a.m * (2 ^ a.e * 2 ^ excessBits a.m)
      = (a.m / 2 ^ excessBits a.m * 2 ^ excessBits a.m) * 2 ^ a.e := by ring
    _ ≤ a.m * 2 ^ a.e := Nat.mul_le_mul_right _ (Nat.div_mul_le_self _ _)

theorem toNat_le_up (a : Scaled) : a.toNat ≤ a.up.toNat := by
  simp only [Scaled.up, forceNat_eq]
  split
  · exact le_rfl
  · simp only [Scaled.toNat, Nat.shiftRight_eq_div_pow, pow_add]
    have h : a.m ≤ (a.m / 2 ^ excessBits a.m + 1) * 2 ^ excessBits a.m := by
      have := Nat.lt_div_mul_add (a := a.m) (b := 2 ^ excessBits a.m) (Nat.two_pow_pos _)
      rw [Nat.add_mul, Nat.one_mul]
      omega
    calc a.m * 2 ^ a.e ≤ ((a.m / 2 ^ excessBits a.m + 1) * 2 ^ excessBits a.m) * 2 ^ a.e := Nat.mul_le_mul_right _ h
      _ = _ := by rw [Nat.succ_eq_add_one]; ring

/-- `Scaled.lt` is the order of the numbers. -/
theorem lt_iff (a b : Scaled) : Scaled.lt a b = true ↔ a.toNat < b.toNat := by
  unfold Scaled.lt Scaled.toNat
  split
  case isTrue h =>
    obtain ⟨d, hd⟩ := Nat.exists_eq_add_of_le h
    have hsub : b.e - a.e = d := by omega
    have hb : b.m * 2 ^ b.e = b.m * 2 ^ d * 2 ^ a.e := by rw [hd, pow_add]; ring
    rw [hsub, hb, Nat.mul_lt_mul_right (Nat.two_pow_pos a.e)]
    split
    case isTrue hc =>
      simp only [Bool.and_eq_true, decide_eq_true_eq] at hc
      have hbig : a.m < 2 ^ d := lt_of_lt_of_le hc.2 (Nat.pow_le_pow_right (by omega) hc.1)
      constructor
      · intro hm
        have : 1 ≤ b.m := by simpa [Nat.one_le_iff_ne_zero] using hm
        exact lt_of_lt_of_le hbig (Nat.le_mul_of_pos_left _ this)
      · intro hm
        have : b.m ≠ 0 := by rintro h0; simp [h0] at hm
        simpa using this
    case isFalse => simp [Nat.shiftLeft_eq]
  case isFalse h =>
    obtain ⟨d, hd⟩ := Nat.exists_eq_add_of_le (Nat.le_of_not_le h)
    have hsub : a.e - b.e = d := by omega
    have ha : a.m * 2 ^ a.e = a.m * 2 ^ d * 2 ^ b.e := by rw [hd, pow_add]; ring
    rw [hsub, ha, Nat.mul_lt_mul_right (Nat.two_pow_pos b.e)]
    split
    case isTrue hc =>
      simp only [Bool.and_eq_true, decide_eq_true_eq] at hc
      have hbig : b.m < 2 ^ d := lt_of_lt_of_le hc.2 (Nat.pow_le_pow_right (by omega) hc.1)
      constructor
      · intro hm
        simp only [Bool.and_eq_true, beq_iff_eq, bne_iff_ne] at hm
        simp [hm.1, Nat.pos_of_ne_zero hm.2]
      · intro hm
        have ha0 : a.m = 0 := by
          by_contra hne
          have : 1 ≤ a.m := Nat.one_le_iff_ne_zero.mpr hne
          have : 2 ^ d ≤ a.m * 2 ^ d := Nat.le_mul_of_pos_left _ this
          omega
        have : b.m ≠ 0 := by omega
        simp [ha0, this]
    case isFalse => simp [Nat.shiftLeft_eq]

theorem squareTimes_le (rnd : Scaled → Scaled) (hr : ∀ a, (rnd a).toNat ≤ a.toNat) :
    ∀ k a, (squareTimes rnd k a).toNat ≤ a.toNat ^ 2 ^ k := by
  intro k
  induction k with
  | zero => intro a; simp [squareTimes]
  | succ k ih =>
    intro a
    simp only [squareTimes, force_eq]
    refine (ih _).trans ?_
    calc (rnd (a.mul a)).toNat ^ 2 ^ k ≤ (a.toNat * a.toNat) ^ 2 ^ k :=
          Nat.pow_le_pow_left ((hr _).trans_eq (mul_toNat a a)) _
      _ = a.toNat ^ 2 ^ (k + 1) := by rw [pow_succ 2 k, mul_comm (2 ^ k), pow_mul, sq]

theorem le_squareTimes (rnd : Scaled → Scaled) (hr : ∀ a, a.toNat ≤ (rnd a).toNat) :
    ∀ k a, a.toNat ^ 2 ^ k ≤ (squareTimes rnd k a).toNat := by
  intro k
  induction k with
  | zero => intro a; simp [squareTimes]
  | succ k ih =>
    intro a
    simp only [squareTimes, force_eq]
    refine le_trans ?_ (ih _)
    calc a.toNat ^ 2 ^ (k + 1) = (a.toNat * a.toNat) ^ 2 ^ k := by
          rw [pow_succ 2 k, mul_comm (2 ^ k), pow_mul, sq]
      _ ≤ (rnd (a.mul a)).toNat ^ 2 ^ k := Nat.pow_le_pow_left ((mul_toNat a a).symm.trans_le (hr _)) _

/-- Reading one more bit of an exponent. -/
theorem shiftRight_bit (n i : Nat) : n >>> i = 2 * (n >>> (i + 1)) + (n.testBit i).toNat := by
  rw [Nat.shiftRight_succ, Nat.testBit_eq_decide_div_mod_eq, ← Nat.shiftRight_eq_div_pow]
  have := Nat.div_add_mod (n >>> i) 2
  rcases Nat.mod_two_eq_zero_or_one (n >>> i) with h | h <;> simp [h] <;> omega

theorem powerLoop_le (rnd : Scaled → Scaled) (hr : ∀ a, (rnd a).toNat ≤ a.toNat) (b : Scaled) (n : Nat) :
    ∀ i acc, acc.toNat ≤ b.toNat ^ (n >>> i) → (powerLoop rnd b n i acc).toNat ≤ b.toNat ^ n := by
  intro i
  induction i with
  | zero => intro acc h; simpa [powerLoop] using h
  | succ i ih =>
    intro acc h
    have hsq : (rnd (acc.mul acc)).toNat ≤ b.toNat ^ (2 * (n >>> (i + 1))) := by
      refine (hr _).trans ?_
      rw [mul_toNat, two_mul, pow_add]
      exact Nat.mul_le_mul h h
    have hbit := shiftRight_bit n i
    simp only [powerLoop, force_eq]
    cases hb : n.testBit i with
    | true =>
      refine ih _ ?_
      rw [hbit, hb, Bool.toNat_true, pow_succ]
      refine (hr _).trans ?_
      rw [mul_toNat]
      exact Nat.mul_le_mul_right _ hsq
    | false =>
      refine ih _ ?_
      rw [hbit, hb, Bool.toNat_false, Nat.add_zero]
      exact hsq

theorem le_powerLoop (rnd : Scaled → Scaled) (hr : ∀ a, a.toNat ≤ (rnd a).toNat) (b : Scaled) (n : Nat) :
    ∀ i acc, b.toNat ^ (n >>> i) ≤ acc.toNat → b.toNat ^ n ≤ (powerLoop rnd b n i acc).toNat := by
  intro i
  induction i with
  | zero => intro acc h; simpa [powerLoop] using h
  | succ i ih =>
    intro acc h
    have hsq : b.toNat ^ (2 * (n >>> (i + 1))) ≤ (rnd (acc.mul acc)).toNat := by
      refine le_trans ?_ (hr _)
      rw [mul_toNat, two_mul, pow_add]
      exact Nat.mul_le_mul h h
    have hbit := shiftRight_bit n i
    simp only [powerLoop, force_eq]
    cases hb : n.testBit i with
    | true =>
      refine ih _ ?_
      rw [hbit, hb, Bool.toNat_true, pow_succ]
      refine le_trans ?_ (hr _)
      rw [mul_toNat]
      exact Nat.mul_le_mul_right _ hsq
    | false =>
      refine ih _ ?_
      rw [hbit, hb, Bool.toNat_false, Nat.add_zero]
      exact hsq

theorem shiftRight_all (n : Nat) : n >>> (n.log2 + 1) = 0 := by
  rw [Nat.shiftRight_eq_div_pow]
  exact Nat.div_eq_of_lt Nat.lt_log2_self

theorem scaledPower_down_le (b : Scaled) (n : Nat) : (scaledPower Scaled.down b n).toNat ≤ b.toNat ^ n :=
  powerLoop_le _ down_toNat_le b n _ _ (by rw [shiftRight_all]; simp [Scaled.toNat])

theorem le_scaledPower_up (b : Scaled) (n : Nat) : b.toNat ^ n ≤ (scaledPower Scaled.up b n).toNat :=
  le_powerLoop _ toNat_le_up b n _ _ (by rw [shiftRight_all]; simp [Scaled.toNat])

@[simp] theorem toNat_pow_two (e : Nat) : (Scaled.mk 1 e).toNat = 2 ^ e := by simp [Scaled.toNat]

/-- The comparison of the power unit is the exact one, whichever way it was decided. -/
theorem powerCompare_eq_exact (neg : Bool) (s d n k : Nat) (sLo sHi q : Scaled)
    (hlo : sLo.toNat ≤ s ^ n) (hhi : s ^ n ≤ sHi.toNat) :
    powerCompare neg s d n k sLo sHi q = powerCompareExact neg s d n k q := by
  have qlo : (squareTimes Scaled.down k q).toNat ≤ q.toNat ^ 2 ^ k := squareTimes_le _ down_toNat_le k q
  have qhi : q.toNat ^ 2 ^ k ≤ (squareTimes Scaled.up k q).toNat := le_squareTimes _ toNat_le_up k q
  unfold powerCompare
  simp only [force_eq, lt_iff, mul_toNat, toNat_pow_two]
  cases neg with
  | true =>
    have hl := Nat.mul_le_mul hlo qlo
    have hh := Nat.mul_le_mul hhi qhi
    simp only [if_true, powerCompareExact]
    split
    · exact (compare_lt_iff_lt.mpr (by omega)).symm
    · split
      · exact (compare_gt_iff_gt.mpr (by omega)).symm
      · rfl
  | false =>
    have hl1 := Nat.mul_le_mul_right (2 ^ (150 * 2 ^ k)) hlo
    have hh1 := Nat.mul_le_mul_right (2 ^ (150 * 2 ^ k)) hhi
    have hl2 := Nat.mul_le_mul_right (2 ^ (d * n)) qlo
    have hh2 := Nat.mul_le_mul_right (2 ^ (d * n)) qhi
    simp only [Bool.false_eq_true, if_false, powerCompareExact]
    split
    · exact (compare_lt_iff_lt.mpr (by omega)).symm
    · split
      · exact (compare_gt_iff_gt.mpr (by omega)).symm
      · rfl

/-- What `roundPower` answers: the rounding by the exact comparison. -/
theorem roundPower_eq (neg : Bool) (s d n k : Nat) :
    roundPower neg s d n k = roundPattern (powerCompareExact neg s d n k) := by
  simp only [roundPower, force_eq]
  congr 1
  funext q
  refine powerCompare_eq_exact neg s d n k _ _ q ?_ ?_
  · simpa [Scaled.toNat] using scaledPower_down_le ⟨s, 0⟩ n
  · simpa [Scaled.toNat] using le_scaledPower_up ⟨s, 0⟩ n

/-- Cancelling twos keeps the fraction. -/
theorem cancelTwos_eq : ∀ k n : Nat, (cancelTwos n k).1 * 2 ^ (k - (cancelTwos n k).2) = n ∧ (cancelTwos n k).2 ≤ k := by
  intro k
  induction k with
  | zero => intro n; simp [cancelTwos]
  | succ k ih =>
    intro n
    unfold cancelTwos
    split
    case isTrue h =>
      obtain ⟨h1, h2⟩ := ih (n / 2)
      refine ⟨?_, by omega⟩
      rw [show k + 1 - (cancelTwos (n / 2) k).2 = (k - (cancelTwos (n / 2) k).2) + 1 by omega, pow_succ, ← mul_assoc, h1]
      omega
    case isFalse => simp

/-- What the general case answers: the rounding by the exact comparison of the reduced exponent `n / 2^k`. -/
theorem powFn_eq (x y : B32) :
    powFn x y = BitVec.ofNat 32 (roundPattern (powerCompareExact (sign y) (signif (magnitude x))
      (150 - scaleOf (magnitude x)) (cancelTwos (units y) 150).1 (cancelTwos (units y) 150).2)) := by
  simp [powFn, roundPower_eq]

end Sys2Proof.Machine
end

