-- ==== Sys2Proof/Laws/Rounding.lean ====
section
/-! SUPPORT. What `roundPattern` answers, said once: the boundary pattern of the predicate "rounds to a pattern above". -/

namespace Sys2Proof.Machine

/-- The bits found stay a bound from below, every bit not yet looked at can be added, and no pattern beyond them is reached. -/
theorem roundBits_boundary (cmp : Scaled → Ordering) :
    ∀ i acc, acc ≤ 0x7F800000 → (acc = 0 ∨ roundsAbove cmp (acc - 1) = true) →
      (0x7F800000 < acc + 2 ^ i ∨ roundsAbove cmp (acc + 2 ^ i - 1) = false) →
      roundBits cmp i acc ≤ 0x7F800000 ∧
      (roundBits cmp i acc = 0 ∨ roundsAbove cmp (roundBits cmp i acc - 1) = true) ∧
      (roundBits cmp i acc = 0x7F800000 ∨ roundsAbove cmp (roundBits cmp i acc) = false) := by
  intro i
  induction i with
  | zero =>
    intro acc hle hlow hhigh
    refine ⟨hle, hlow, ?_⟩
    rcases hhigh with h | h
    · left; simp only [roundBits]; omega
    · right; simpa [roundBits] using h
  | succ i ih =>
    intro acc hle hlow hhigh
    have hpow : 2 ^ (i + 1) = 2 ^ i + 2 ^ i := by rw [pow_succ]; omega
    have hpos : 0 < 2 ^ i := Nat.two_pow_pos i
    unfold roundBits
    split
    case isTrue h =>
      simp only [Bool.and_eq_true, decide_eq_true_eq] at h
      refine ih _ h.1 (Or.inr h.2) ?_
      rw [Nat.add_assoc, ← hpow]
      exact hhigh
    case isFalse h =>
      simp only [Bool.and_eq_true, decide_eq_true_eq, not_and, Bool.not_eq_true] at h
      refine ih _ hle hlow ?_
      by_cases hc : acc + 2 ^ i ≤ 0x7F800000
      · exact Or.inr (h hc)
      · exact Or.inl (by omega)

/-- What `roundPattern` answers: a pattern up to the infinity, one that the real does not round above, while it rounds above the
pattern before it. -/
theorem roundPattern_boundary (cmp : Scaled → Ordering) :
    roundPattern cmp ≤ 0x7F800000 ∧
      (roundPattern cmp = 0 ∨ roundsAbove cmp (roundPattern cmp - 1) = true) ∧
      (roundPattern cmp = 0x7F800000 ∨ roundsAbove cmp (roundPattern cmp) = false) :=
  roundBits_boundary cmp 31 0 (by omega) (Or.inl rfl) (Or.inl (by norm_num))

/-- Whatever the comparison answers, the pattern found is at most the infinity. -/
theorem roundBits_le (cmp : Scaled → Ordering) :
    ∀ i acc, acc ≤ 0x7F800000 → roundBits cmp i acc ≤ 0x7F800000 := by
  intro i
  induction i with
  | zero => intro acc h; exact h
  | succ i ih =>
    intro acc h
    unfold roundBits
    split
    case isTrue hc =>
      simp only [Bool.and_eq_true, decide_eq_true_eq] at hc
      exact ih _ hc.1
    case isFalse => exact ih _ h

theorem roundPattern_le (cmp : Scaled → Ordering) : roundPattern cmp ≤ 0x7F800000 :=
  roundBits_le cmp 31 0 (by omega)

end Sys2Proof.Machine
end

