-- ==== Sys2Proof/Laws/Real.lean ====
section
/-! SUPPORT. The link between patterns and numbers: the fields of a pattern as arithmetic on its bits, the value of a pattern in
units of 2^-150, the spacing of the values, and what `roundPattern` answers for a positive real: its `RNE32`. -/

namespace Sys2Proof.Machine

theorem sign_eq (b : B32) : sign b = decide (2 ^ 31 ≤ b.toNat) := by
  unfold sign
  rw [BitVec.getLsbD, Nat.testBit_eq_decide_div_mod_eq]
  have := b.isLt
  congr 1
  apply propext
  omega

theorem biasedExp_toNat (b : B32) : (biasedExp b).toNat = b.toNat / 2 ^ 23 % 256 := by
  simp [biasedExp, BitVec.extractLsb'_toNat, Nat.shiftRight_eq_div_pow]

theorem fraction_toNat (b : B32) : (fraction b).toNat = b.toNat % 2 ^ 23 := by
  simp [fraction, BitVec.extractLsb'_toNat]

theorem magnitude_div (b : B32) : magnitude b / 2 ^ 23 = (biasedExp b).toNat := by
  rw [biasedExp_toNat, magnitude]
  omega

theorem magnitude_mod (b : B32) : magnitude b % 2 ^ 23 = (fraction b).toNat := by
  rw [fraction_toNat, magnitude]
  omega

theorem isFinite_iff (b : B32) : isFinite b = true ↔ magnitude b < 0x7F800000 := by
  have h := magnitude_div b
  have : magnitude b < 2 ^ 31 := Nat.mod_lt _ (by norm_num)
  have h8 := (biasedExp b).isLt
  unfold isFinite
  rw [bne_iff_ne, ne_eq, ← BitVec.toNat_inj, ← h]
  simp only [BitVec.toNat_ofNat]
  omega

/-- The value of a finite pattern is its magnitude in units of 2^-150, with its sign. -/
theorem val_eq_units (b : B32) : val b = (if sign b then -1 else 1) * units b / 2 ^ 150 := by
  unfold val units patternUnits signif scaleOf
  rw [magnitude_div, magnitude_mod]
  by_cases h : biasedExp b = 0#8
  · simp only [h, BitVec.toNat_ofNat, if_true, Nat.zero_mod]
    push_cast
    have : (2 : ℚ) ^ (-149 : ℤ) = 2 ^ 1 / 2 ^ 150 := by norm_num [zpow_neg]
    rw [this]; ring
  · have h0 : (biasedExp b).toNat ≠ 0 := by
      intro hz; exact h (BitVec.eq_of_toNat_eq (by simpa using hz))
    simp only [h, h0, if_false]
    rw [zpow_sub₀ (by norm_num : (2 : ℚ) ≠ 0), zpow_natCast]
    have h150 : (2 : ℚ) ^ (150 : ℤ) = 2 ^ 150 := by norm_num
    rw [h150, Nat.cast_mul, Nat.cast_pow, Nat.cast_ofNat]
    ring

theorem scaleOf_pos (p : Nat) : 1 ≤ scaleOf p := by
  unfold scaleOf; split <;> omega

/-- Neighbouring values lie one unit in the last place apart. -/
theorem patternUnits_succ (p : Nat) : patternUnits (p + 1) = patternUnits p + 2 ^ scaleOf p := by
  unfold patternUnits signif scaleOf
  by_cases hz : p / 2 ^ 23 = 0
  · by_cases hc : p % 2 ^ 23 + 1 = 2 ^ 23
    · have h1 : (p + 1) / 2 ^ 23 = 1 := by omega
      have h2 : (p + 1) % 2 ^ 23 = 0 := by omega
      have h3 : p % 2 ^ 23 = 2 ^ 23 - 1 := by omega
      rw [h1, h2, hz, h3]; norm_num
    · have h1 : (p + 1) / 2 ^ 23 = 0 := by omega
      have h2 : (p + 1) % 2 ^ 23 = p % 2 ^ 23 + 1 := by omega
      rw [h1, h2, hz]; simp; ring
  · by_cases hc : p % 2 ^ 23 + 1 = 2 ^ 23
    · have h1 : (p + 1) / 2 ^ 23 = p / 2 ^ 23 + 1 := by omega
      have h2 : (p + 1) % 2 ^ 23 = 0 := by omega
      have h3 : p % 2 ^ 23 = 2 ^ 23 - 1 := by omega
      rw [h1, h2, h3]; simp only [hz, if_false, Nat.succ_ne_zero]
      rw [pow_succ]; ring
    · have h1 : (p + 1) / 2 ^ 23 = p / 2 ^ 23 := by omega
      have h2 : (p + 1) % 2 ^ 23 = p % 2 ^ 23 + 1 := by omega
      rw [h1, h2]; simp only [hz, if_false]; ring

theorem patternUnits_strictMono : StrictMono patternUnits :=
  strictMono_nat_of_lt_succ fun p => by rw [patternUnits_succ]; exact Nat.lt_add_of_pos_right (Nat.two_pow_pos _)

/-- A half way point is the mean of the two values beside it. -/
theorem two_mul_midpoint (p : Nat) : 2 * (midpoint p).toNat = patternUnits p + patternUnits (p + 1) := by
  rw [patternUnits_succ]
  have h := scaleOf_pos p
  obtain ⟨k, hk⟩ := Nat.exists_eq_add_of_le h
  unfold midpoint Scaled.toNat patternUnits
  simp only [hk, Nat.add_sub_cancel_left, pow_add, pow_one]
  ring

theorem midpoint_strictMono : StrictMono fun p => (midpoint p).toNat :=
  strictMono_nat_of_lt_succ fun p => by
    have h1 := two_mul_midpoint p
    have h2 := two_mul_midpoint (p + 1)
    have h3 := patternUnits_strictMono (Nat.lt_succ_self p)
    have h4 := patternUnits_strictMono (Nat.lt_succ_self (p + 1))
    simp only [Nat.succ_eq_add_one] at h3 h4
    show (midpoint p).toNat < (midpoint (p + 1)).toNat
    omega

/-- A comparison that compares the positive real `q` with multiples of 2^-150. -/
def Compares (cmp : Scaled → Ordering) (q : ℝ) : Prop :=
  ∀ a : Scaled, (cmp a = .lt ↔ q * 2 ^ 150 < a.toNat) ∧ (cmp a = .gt ↔ (a.toNat : ℝ) < q * 2 ^ 150)

theorem Compares.above {cmp : Scaled → Ordering} {q : ℝ} (h : Compares cmp q) {p : Nat}
    (hp : roundsAbove cmp p = true) :
    ((midpoint p).toNat : ℝ) ≤ q * 2 ^ 150 ∧ (q * 2 ^ 150 = (midpoint p).toNat → p % 2 = 1) := by
  obtain ⟨hl, hg⟩ := h (midpoint p)
  unfold roundsAbove at hp
  cases hc : cmp (midpoint p) with
  | lt => simp [hc] at hp
  | gt => exact ⟨(hg.mp hc).le, fun he => absurd (hg.mp hc) (by rw [he]; exact lt_irrefl _)⟩
  | eq =>
    refine ⟨not_lt.mp fun hlt => ?_, fun _ => by simpa [hc] using hp⟩
    rw [hl.mpr hlt] at hc; cases hc

theorem Compares.notAbove {cmp : Scaled → Ordering} {q : ℝ} (h : Compares cmp q) {p : Nat}
    (hp : roundsAbove cmp p = false) :
    q * 2 ^ 150 ≤ (midpoint p).toNat ∧ (q * 2 ^ 150 = (midpoint p).toNat → p % 2 = 0) := by
  obtain ⟨hl, hg⟩ := h (midpoint p)
  unfold roundsAbove at hp
  cases hc : cmp (midpoint p) with
  | gt => simp [hc] at hp
  | lt => exact ⟨(hl.mp hc).le, fun he => absurd (hl.mp hc) (by rw [he]; exact lt_irrefl _)⟩
  | eq =>
    refine ⟨not_lt.mp fun hlt => ?_, fun _ => by simpa [hc] using hp⟩
    rw [hg.mpr hlt] at hc; cases hc

theorem overflow_eq : ((midpoint 0x7F7FFFFF).toNat : ℝ) = (2 ^ 128 - 2 ^ 103) * 2 ^ 150 := by
  have : (midpoint 0x7F7FFFFF).toNat = (2 ^ 128 - 2 ^ 103) * 2 ^ 150 := by decide +kernel
  rw [this]; norm_num

/-- What `roundPattern` answers for a positive real `q`: the infinity from the overflow bound on, and else the pattern `p` below
the infinity with `q` between the half way points on its two sides, on one of them only if `p` is even. -/
theorem roundPattern_between (cmp : Scaled → Ordering) (q : ℝ) (hc : Compares cmp q) :
    (2 ^ 128 - 2 ^ 103 ≤ q → roundPattern cmp = 0x7F800000) ∧
    (q < 2 ^ 128 - 2 ^ 103 → roundPattern cmp < 0x7F800000 ∧
      (q * 2 ^ 150 ≤ (midpoint (roundPattern cmp)).toNat ∧
        (q * 2 ^ 150 = (midpoint (roundPattern cmp)).toNat → roundPattern cmp % 2 = 0)) ∧
      (∀ p, roundPattern cmp = p + 1 → ((midpoint p).toNat : ℝ) ≤ q * 2 ^ 150 ∧
        (q * 2 ^ 150 = (midpoint p).toNat → roundPattern cmp % 2 = 0))) := by
  obtain ⟨hle, hlow, hhigh⟩ := roundPattern_boundary cmp
  generalize roundPattern cmp = P at *
  have hov := overflow_eq
  constructor
  · intro hq
    by_contra hne
    have hna := hc.notAbove (hhigh.resolve_left hne)
    have hm : (midpoint P).toNat ≤ (midpoint 0x7F7FFFFF).toNat := midpoint_strictMono.monotone (by omega)
    have hm' : ((midpoint P).toNat : ℝ) ≤ (midpoint 0x7F7FFFFF).toNat := by exact_mod_cast hm
    have hQ : (2 ^ 128 - 2 ^ 103) * 2 ^ 150 ≤ q * 2 ^ 150 := mul_le_mul_of_nonneg_right hq (by positivity)
    have heq : q * 2 ^ 150 = (midpoint P).toNat := le_antisymm hna.1 (by linarith)
    have heq2 : (midpoint P).toNat = (midpoint 0x7F7FFFFF).toNat := by
      have : ((midpoint P).toNat : ℝ) = (midpoint 0x7F7FFFFF).toNat := le_antisymm hm' (by linarith [hna.1])
      exact_mod_cast this
    have hP := midpoint_strictMono.injective heq2
    have := hna.2 heq
    omega
  · intro hq
    have hlt : q * 2 ^ 150 < (midpoint 0x7F7FFFFF).toNat := by
      rw [hov]; exact mul_lt_mul_of_pos_right hq (by positivity)
    have hne : P ≠ 0x7F800000 := by
      rintro rfl
      have := (hc.above (hlow.resolve_left (by norm_num))).1
      norm_num at this hlt
      linarith
    refine ⟨by omega, hc.notAbove (hhigh.resolve_left hne), ?_⟩
    rintro p rfl
    have := hc.above (hlow.resolve_left (by omega))
    rw [Nat.add_sub_cancel] at this
    exact ⟨this.1, fun he => by have := this.2 he; omega⟩

theorem magnitude_ofNat {p : Nat} (h : p < 2 ^ 31) : magnitude (BitVec.ofNat 32 p) = p := by
  unfold magnitude
  rw [BitVec.toNat_ofNat]
  omega

theorem sign_ofNat {p : Nat} (h : p < 2 ^ 31) : sign (BitVec.ofNat 32 p) = false := by
  rw [sign_eq, BitVec.toNat_ofNat, decide_eq_false_iff_not]
  omega

/-- Rounding is monotone. -/
theorem roundPattern_mono {cmp cmp' : Scaled → Ordering} {q q' : ℝ} (hc : Compares cmp q) (hc' : Compares cmp' q')
    (h : q ≤ q') : roundPattern cmp ≤ roundPattern cmp' := by
  by_contra hlt
  have hle := roundPattern_le cmp
  have hq' : q' < 2 ^ 128 - 2 ^ 103 := by
    by_contra hge
    have := (roundPattern_between cmp' q' hc').1 (not_lt.mp hge)
    omega
  obtain ⟨-, -, hdown⟩ := (roundPattern_between cmp q hc).2 (by linarith)
  obtain ⟨-, hup, -⟩ := (roundPattern_between cmp' q' hc').2 hq'
  obtain ⟨p, hp⟩ : ∃ p, roundPattern cmp = p + 1 := ⟨roundPattern cmp - 1, by omega⟩
  have hd := hdown p hp
  have hQ : q * 2 ^ 150 ≤ q' * 2 ^ 150 := mul_le_mul_of_nonneg_right h (by positivity)
  have hm : ((midpoint (roundPattern cmp')).toNat : ℝ) ≤ (midpoint p).toNat := by
    exact_mod_cast midpoint_strictMono.monotone (show roundPattern cmp' ≤ p by omega)
  have heq : (midpoint (roundPattern cmp')).toNat = (midpoint p).toNat := by
    have : ((midpoint (roundPattern cmp')).toNat : ℝ) = (midpoint p).toNat := le_antisymm hm (by linarith [hup.1, hd.1])
    exact_mod_cast this
  have hpp : roundPattern cmp' = p := midpoint_strictMono.injective heq
  have h1 := hd.2 (le_antisymm (by rw [← hpp]; linarith [hup.1]) hd.1)
  have h2 := hup.2 (le_antisymm hup.1 (by rw [hpp]; linarith [hd.1]))
  omega

/-- The value of a finite pattern rounds to that pattern. -/
theorem roundPattern_exact {cmp : Scaled → Ordering} {q : ℝ} (hc : Compares cmp q) {p : Nat} (hp : p < 0x7F800000)
    (hq : q * 2 ^ 150 = patternUnits p) : roundPattern cmp = p := by
  have hov := overflow_eq
  have hm : (patternUnits p : ℝ) < (midpoint 0x7F7FFFFF).toNat := by
    have h1 : patternUnits p ≤ patternUnits 0x7F7FFFFF := patternUnits_strictMono.monotone (by omega)
    have h2 : patternUnits 0x7F7FFFFF < (midpoint 0x7F7FFFFF).toNat := by decide +kernel
    exact_mod_cast lt_of_le_of_lt h1 h2
  have hlt : q < 2 ^ 128 - 2 ^ 103 := by
    rw [← hq, hov] at hm
    exact lt_of_mul_lt_mul_right hm (by positivity)
  obtain ⟨-, hup, hdown⟩ := (roundPattern_between cmp q hc).2 hlt
  generalize roundPattern cmp = P at *
  rw [hq] at hup hdown
  rcases lt_trichotomy P p with h | h | h
  · exfalso
    have h1 := two_mul_midpoint P
    have h2 := patternUnits_strictMono (Nat.lt_succ_self P)
    have h3 : patternUnits (P + 1) ≤ patternUnits p := patternUnits_strictMono.monotone h
    have h4 : patternUnits p ≤ (midpoint P).toNat := by exact_mod_cast hup.1
    simp only [Nat.succ_eq_add_one] at h2
    omega
  · exact h
  · exfalso
    obtain ⟨m, rfl⟩ : ∃ m, P = m + 1 := ⟨P - 1, by omega⟩
    have h1 := two_mul_midpoint m
    have h2 := patternUnits_strictMono (Nat.lt_succ_self m)
    have h3 : patternUnits p ≤ patternUnits m := patternUnits_strictMono.monotone (by omega)
    have h4 : (midpoint m).toNat ≤ patternUnits p := by exact_mod_cast (hdown m rfl).1
    simp only [Nat.succ_eq_add_one] at h2
    omega

/-- What `roundPattern` answers for a positive real is its `RNE32` (spec/00_scope.md rule R10). -/
theorem roundPattern_isRNE32 (cmp : Scaled → Ordering) (q : ℝ) (hq : 0 < q) (hc : Compares cmp q) :
    IsRNE32 q (BitVec.ofNat 32 (roundPattern cmp)) := by
  obtain ⟨hover, hfin⟩ := roundPattern_between cmp q hc
  refine ⟨fun h => absurd h hq.ne', fun h => ?_, fun h => ?_, fun _ h => ?_⟩
  · rw [hover h]; rfl
  · norm_num at h; linarith
  · rw [abs_of_pos hq] at h
    obtain ⟨hP, hup, hdown⟩ := hfin h
    generalize roundPattern cmp = P at *
    have hmag : magnitude (BitVec.ofNat 32 P) = P := magnitude_ofNat (by omega)
    have hsign : sign (BitVec.ofNat 32 P) = false := sign_ofNat (by omega)
    have hval : (val (BitVec.ofNat 32 P) : ℝ) = (patternUnits P : ℝ) / 2 ^ 150 := by
      rw [val_eq_units, hsign, units, hmag]; push_cast; simp
    have hpar : P % 2 = 0 → (fraction (BitVec.ofNat 32 P)).toNat % 2 = 0 := by
      intro h2; rw [fraction_toNat, BitVec.toNat_ofNat]; omega
    refine ⟨(isFinite_iff _).mpr (by rw [hmag]; exact hP), by simp [hsign, hq.le], ?_⟩
    -- in units of 2^-150, against the value of the pattern `pc`
    have hpos : (0 : ℝ) < 2 ^ 150 := by positivity
    have hnear : ∀ pc : Nat, |(patternUnits P : ℝ) - q * 2 ^ 150| ≤ |(patternUnits pc : ℝ) - q * 2 ^ 150| ∧
        (|(patternUnits P : ℝ) - q * 2 ^ 150| = |(patternUnits pc : ℝ) - q * 2 ^ 150| → pc ≠ P → P % 2 = 0) := by
      intro pc
      generalize q * 2 ^ 150 = Q at *
      rcases lt_trichotomy pc P with hlt | heq | hgt
      · obtain ⟨p, rfl⟩ : ∃ p, P = p + 1 := ⟨P - 1, by omega⟩
        have hm : (2 : ℝ) * (midpoint p).toNat = patternUnits p + patternUnits (p + 1) := by
          exact_mod_cast two_mul_midpoint p
        have hle : (patternUnits pc : ℝ) ≤ patternUnits p := by
          exact_mod_cast patternUnits_strictMono.monotone (by omega)
        have hst : (patternUnits p : ℝ) < patternUnits (p + 1) := by
          exact_mod_cast patternUnits_strictMono (Nat.lt_succ_self p)
        obtain ⟨h1, h2⟩ := hdown p rfl
        have habs : |(patternUnits pc : ℝ) - Q| = Q - patternUnits pc := by
          rw [abs_of_neg (by linarith)]; ring
        rw [habs]
        refine ⟨abs_le.mpr ⟨by linarith, by linarith⟩, fun he _ => h2 ?_⟩
        rcases abs_eq_abs.mp (he.trans habs.symm) with h | h <;> linarith
      · subst heq; exact ⟨le_rfl, fun _ h => absurd rfl h⟩
      · have hm : (2 : ℝ) * (midpoint P).toNat = patternUnits P + patternUnits (P + 1) := by
          exact_mod_cast two_mul_midpoint P
        have hle : (patternUnits (P + 1) : ℝ) ≤ patternUnits pc := by
          exact_mod_cast patternUnits_strictMono.monotone hgt
        have hst : (patternUnits P : ℝ) < patternUnits (P + 1) := by
          exact_mod_cast patternUnits_strictMono (Nat.lt_succ_self P)
        have habs : |(patternUnits pc : ℝ) - Q| = patternUnits pc - Q := abs_of_pos (by linarith [hup.1])
        rw [habs]
        refine ⟨abs_le.mpr ⟨by linarith [hup.1], by linarith [hup.1]⟩, fun he _ => hup.2 ?_⟩
        rcases abs_eq_abs.mp (he.trans habs.symm) with h | h <;> linarith [hup.1]
    have hunit : ∀ u : ℝ, |u / 2 ^ 150 - q| = |u - q * 2 ^ 150| / 2 ^ 150 := by
      intro u
      rw [← abs_of_pos hpos, ← abs_div, abs_of_pos hpos]
      congr 1
      field_simp
    intro c hcf
    have hcv : (val c : ℝ) = (if sign c then -1 else 1) * (units c : ℝ) / 2 ^ 150 := by
      rw [val_eq_units]; push_cast; split <;> simp
    rw [hval, hcv, hunit, hunit, div_le_div_iff_of_pos_right hpos, div_left_inj' hpos.ne']
    have hc0 := hnear (magnitude c)
    cases hs : sign c with
    | false =>
      simp only [Bool.false_eq_true, if_false, one_mul]
      refine ⟨hc0.1, fun he hne => hpar (hc0.2 he ?_)⟩
      intro heq
      refine hne ?_
      rw [val_eq_units, val_eq_units, hs, hsign, units, units, hmag, heq]
    | true =>
      simp only [if_true, neg_one_mul]
      have h0 := hnear 0
      have hz : patternUnits 0 = 0 := by decide
      rw [hz, Nat.cast_zero, zero_sub, abs_neg] at h0
      have hQ : 0 < q * 2 ^ 150 := mul_pos hq hpos
      have habs : |-(units c : ℝ) - q * 2 ^ 150| = units c + q * 2 ^ 150 := by
        rw [abs_of_neg (by have : (0 : ℝ) ≤ units c := Nat.cast_nonneg _; linarith)]; ring
      rw [abs_of_pos hQ] at h0
      rw [habs]
      have hu : (0 : ℝ) ≤ units c := Nat.cast_nonneg _
      refine ⟨by linarith [h0.1], fun he hne => hpar ?_⟩
      have hu0 : (units c : ℝ) = 0 := le_antisymm (by linarith [h0.1]) hu
      refine h0.2 (by linarith) ?_
      rintro rfl
      refine hne ?_
      have hu0' : units c = 0 := by exact_mod_cast hu0
      have hb0 : units (BitVec.ofNat 32 0) = 0 := by decide
      rw [val_eq_units, val_eq_units, hb0, hu0']; simp

end Sys2Proof.Machine
end

