-- ==== Sys2Proof/Tests/Slice0.lean ====
section
/-! SUPPORT. Small tests of the model against the spec's own worked values (spec/95_test_vectors.md), the ill-formed terms that the
checks of WellFormed.lean refuse, and, for every statement with hypotheses, a case that meets them. -/

open Sys2Proof Sys2Proof.Machine

/-! ## Well-formedness and decoding -/

theorem test_word_of_68_bits_refused : wellFormedWord (2 ^ 67) = false ∧ decodeTableWord 72 (2 ^ 67) = none := by decide

theorem test_code_256_refused :
    TraceLine.wellFormed (.applyrgba 256 0 0 0) = false ∧ TraceLine.wellFormed (.applyrgba 0 256 0 0) = false ∧
    TraceLine.wellFormed (.applyrgba 0 0 256 0) = false ∧ TraceLine.wellFormed (.applyrgba 0 0 0 256) = false := by
  decide

/-- V45: all 67 bits set is a `RESET`. -/
theorem test_decode_reset : decode 0x7FFFFFFFFFFFFFFFF#67 = .reset := by decide

/-- V46: a `NOP` with garbage in both fields. -/
theorem test_decode_nop : decode 0x0DEADBEEFCAFEF00D#67 = .nop := by decide

/-- V47: `APPLY` with garbage in `cfg_wdata`. -/
theorem test_decode_apply : decode 0x1DEADBEEF00000080#67 = .apply 0x00000080#32 := by decide

/-- V48: `SETGAMMA` with garbage in `pixel_in`. -/
theorem test_decode_setgamma : decode 0x23F000000CAFEF00D#67 = .setgamma 0x3F000000#32 := by decide

/-- V44: both strobes. -/
theorem test_decode_applySetgamma : decode 0x33F00000000000080#67 = .applySetgamma 0x00000080#32 0x3F000000#32 := by
  decide

/-- The examples of spec/30_encoding.md rule R34 for `SETGAMMAF` and `APPLYRGBA`. -/
theorem test_trace_pseudo_operations :
    expandLine 5 (.setgammaf false 22 1) = [.setgamma 0x400CCCCD#32] ∧
    expandLine 5 (.setgammaf false 5 1) = [.setgamma 0x3F000000#32] ∧
    expandLine 5 (.applyrgba 128 64 0 255) = [.apply 0xFF004080#32] := by decide +kernel

theorem test_trace_text :
    opText (.applySetgamma 0x00000080#32 0x3F000000#32) = "APPLY 0x00000080 || SETGAMMA 0x3F000000" ∧
    bundleText (encode (.apply 0xFF804000#32)) = "0x100000000FF804000" := by decide +kernel

/-- A trace in every form of line, and lines that are none: a code of 256, seven digits, a missing operand. -/
theorem test_trace_is_read :
    readTrace "RESET # start\nSETGAMMAF 2.2\n\nAPPLYRGBA 128, 64, 0, 255\nAPPLY 0x00000080 || SETGAMMA 0x3F000000\nNOP 2\nDRAIN" =
      some [.reset, .setgammaf false 22 1, .applyrgba 128 64 0 255, .applySetgamma 0x80#32 0x3F000000#32, .nops 2, .drain] ∧
    readTrace "PASS 0x3F000000; 0x00000001 0xFF804000" = some [.pass 0x3F000000#32 [0x1#32, 0xFF804000#32]] ∧
    readTrace "SETGAMMAF -0.5" = some [.setgammaf true 5 1] ∧
    readTrace "APPLYRGBA 256, 0, 0, 0" = none ∧ readTrace "APPLY 0x0000080" = none ∧ readTrace "SETGAMMA" = none := by
  decide +kernel

/-! ## The stages -/

/-- V11. -/
theorem test_unpack : unpack 0x12345678#32 0x40000000#32 = ⟨0x78#8, 0x56#8, 0x34#8, 0x12#8, 0x40000000#32⟩ := by decide

/-- V23 (the division, not the product with a reciprocal) and V27. -/
theorem test_norm : norm 3#8 = 0x3C40C0C1#32 ∧ norm 128#8 = 0x3F008081#32 := by decide +kernel

/-- V90, V93, V98, V104, V106: one case of each of rules R52 to R56. -/
theorem test_pow_special_cases :
    pow 0x00000000#32 0x80000000#32 = 0x3F800000#32 ∧ pow 0x3F800000#32 0x7FC00000#32 = 0x3F800000#32 ∧
    pow 0x00000000#32 0xFFC00001#32 = 0x7FC00000#32 ∧ pow 0x00000000#32 0xFF800000#32 = 0x7F800000#32 ∧
    pow 0x3EFEFEFF#32 0xFF800000#32 = 0x7F800000#32 := by decide +kernel

/-- V64, V72, V77, V79: a gamma with 22 fraction bits, a subnormal result, an overflow and a negative gamma. -/
theorem test_pow_general_case :
    pow 0x3EF0F0F1#32 0x400CCCCD#32 = 0x3E4308B3#32 ∧ pow 0x3B808081#32 0x41880000#32 = 0x00002234#32 ∧
    pow 0x3B808081#32 0xC2C80000#32 = 0x7F800000#32 ∧ pow 0x3F008081#32 0xBF800000#32 = 0x3FFEFFFF#32 := by
  decide +kernel

/-- V31, V35, V51, V53. -/
theorem test_clamp :
    clamp 0x7FC00000#32 = 0x00000000#32 ∧ clamp 0xFF800000#32 = 0x00000000#32 ∧
    clamp 0x3F800001#32 = 0x3F800000#32 ∧ clamp 0x00000001#32 = 0x00000001#32 := by decide

/-- V154, V157, V163, V167: the two roundings, a tie, and saturation. -/
theorem test_pack :
    pack 0x3C20A0A1#32 = 2#8 ∧ pack 0x3F7F7F80#32 = 254#8 ∧ pack 0x3F010102#32 = 129#8 ∧ pack 0x7F800000#32 = 255#8 := by
  decide +kernel

/-- V110 and V115: whole pixels. -/
theorem test_apply_pixel :
    applyPixel 0xFF804000#32 0x40000000#32 = 0xFF401000#32 ∧ applyPixel 0x00FF8001#32 0xBF800000#32 = 0x00FFFFFF#32 := by
  decide +kernel

/-! ## The operations -/

/-- A state with the given valid bits and gamma, and the bundles of the given operations to come. -/
def stateWith (v1 v2 v3 v4 v5 : Bool) (g : B32) (ops : List Instr) : State :=
  { State.reset with
    v1 := v1, v2 := v2, v3 := v3, v4 := v4, v5 := v5, gamma := g, pending := ops.map encode }

/-- What `f` says of the state after one step. -/
def afterStep (s : State) (f : State → Bool) : Bool :=
  match step s with
  | .next t => f t
  | .fault _ => false
  | .refused _ => false

/-- V41: the example of rule R36. -/
theorem test_reset_clears_valid_bits :
    afterStep (stateWith true true false false true 0x40000000#32 [.reset])
      (fun t => !t.v1 && !t.v2 && !t.v3 && !t.v4 && !t.v5) = true := by decide

/-- V42: the example of rule R37. -/
theorem test_nop_moves_the_slots :
    afterStep (stateWith true false false false false 0x3F000000#32 [.nop])
      (fun t => !t.v1 && t.v2 && !t.v3 && !t.v4 && !t.v5 && t.gamma == 0x3F000000#32) = true := by decide

/-- V40: slot 1 takes the pixel and the gamma. -/
theorem test_apply_captures :
    afterStep (stateWith false false false false false 0x40000000#32 [.apply 0xFF804000#32])
      (fun t => t.v1 && !t.v2 && t.s1 == ⟨0x00#8, 0x40#8, 0x80#8, 0xFF#8, 0x40000000#32⟩) = true := by decide

/-- V43: the example of rule R39. -/
theorem test_setgamma_writes :
    afterStep (stateWith false false false false false 0x3F800000#32 [.setgamma 0x3F000000#32])
      (fun t => !t.v1 && t.gamma == 0x3F000000#32) = true := by decide

/-- V44: the old gamma is captured, the new one is written. -/
theorem test_applySetgamma_captures_old_gamma :
    afterStep (stateWith false false false false false 0x40000000#32 [.applySetgamma 0x00000080#32 0x3F000000#32])
      (fun t => t.v1 && t.s1.gm == 0x40000000#32 && t.gamma == 0x3F000000#32) = true := by decide

/-- The host's way to place an operation: the next step runs it. -/
theorem test_withFetchWord_runs_next :
    step (State.reset.withFetchWord 72 0x1DEADBEEF00000080) = exec (.apply 0x00000080#32) State.reset := rfl

/-! ## Cases that meet the hypotheses of the statements, one for each clause -/

theorem test_witness_ControlBitsSelectTheOperation :
    rstOf 0x40000000000000000#67 = true ∧
    (rstOf 0#67 = false ∧ cfgWeOf 0#67 = false ∧ inValidOf 0#67 = false) ∧
    (rstOf 0x1FFFFFFFFFFFFFFFF#67 = false ∧ cfgWeOf 0x1FFFFFFFFFFFFFFFF#67 = false ∧ inValidOf 0x1FFFFFFFFFFFFFFFF#67 = true) ∧
    (rstOf 0x2FFFFFFFFFFFFFFFF#67 = false ∧ cfgWeOf 0x2FFFFFFFFFFFFFFFF#67 = true ∧ inValidOf 0x2FFFFFFFFFFFFFFFF#67 = false) ∧
    (rstOf 0x3FFFFFFFFFFFFFFFF#67 = false ∧ cfgWeOf 0x3FFFFFFFFFFFFFFFF#67 = true ∧ inValidOf 0x3FFFFFFFFFFFFFFFF#67 = true) := by
  decide

theorem test_witness_StepRunsThePresentedOperation :
    (stateWith true true true true true 0#32 [.nop]).pending = encode .nop :: [] ∧ State.reset.pending = [] := by decide

theorem test_witness_IgnoredBitsHaveNoEffect :
    ∀ k, bitMatters 0x10000000000000080#67 k = true →
      (0x1DEADBEEF00000080#67 : Bundle).getLsbD k = (0x10000000000000080#67 : Bundle).getLsbD k := by
  have small : ∀ k, k < 67 → bitMatters 0x10000000000000080#67 k = true →
      (0x1DEADBEEF00000080#67 : Bundle).getLsbD k = (0x10000000000000080#67 : Bundle).getLsbD k := by decide
  intro k hk
  by_cases h : k < 67
  · exact small k h hk
  · rw [BitVec.getLsbD_of_ge _ _ (by omega), BitVec.getLsbD_of_ge _ _ (by omega)]

theorem test_witness_OutputsDependOnTheStateAlone : (stateWith false false false false true 0#32 []).v5 = true := by decide

theorem test_witness_rounding_denominators : 0 < 255 ∧ 0 < 2 ^ 150 ∧ 0 < 1 := by decide

theorem test_witness_PatternOrderIsValueOrder :
    sign pZero = false ∧ sign 0x7F7FFFFF#32 = false ∧ isFinite pZero = true ∧ isFinite 0x7F7FFFFF#32 = true := by decide

theorem test_witness_NormProperties :
    (0#8 : Code) < 1#8 ∧ (254#8 : Code) < 255#8 ∧
    ((1#8 : Code) ≠ 0#8 ∧ (1#8 : Code) ≠ 255#8) ∧ ((254#8 : Code) ≠ 0#8 ∧ (254#8 : Code) ≠ 255#8) := by decide

theorem test_witness_PowSpecialCases :
    isNormalised pZero = true ∧ isNormalised one = true ∧ isNormalised 0x3B808081#32 = true ∧
    isZero nZero = true ∧ isNaN 0x7F800001#32 = true ∧ (0x3B808081#32 : B32) ≠ one ∧
    (isZero 0x00000001#32 = false ∧ isNaN 0x00000001#32 = false ∧ sign 0x00000001#32 = false) ∧
    (isZero nInf = false ∧ isNaN nInf = false ∧ sign nInf = true) ∧ (0x3B808081#32 : B32) ≠ pZero := by decide +kernel

theorem test_witness_PowIsTheCorrectlyRoundedPower :
    isInnerBase 0x3B808081#32 = true ∧ isInnerBase 0x3F7EFEFF#32 = true ∧
    isInnerExponent 0x00000001#32 = true ∧ isInnerExponent 0x7F7FFFFF#32 = true ∧
    isInnerExponent 0x80000001#32 = true ∧ isInnerExponent 0xFF7FFFFF#32 = true := by decide +kernel

theorem test_witness_PowFnHasThePowerProperties :
    isInnerBase 0x3B808081#32 = true ∧ isInnerBase 0x3F7EFEFF#32 = true ∧ (0x3B808081#32 : B32) ≤ 0x3F7EFEFF#32 ∧
    isInnerExponent one = true ∧ sign one = false ∧ isInnerExponent 0xBF800000#32 = true ∧ sign 0xBF800000#32 = true := by
  decide +kernel

theorem test_witness_ChanByClassOfGamma :
    isZero pZero = true ∧ isZero nZero = true ∧
    (isFinite 0x7F7FFFFF#32 = true ∧ isZero 0x7F7FFFFF#32 = false ∧ sign 0x7F7FFFFF#32 = false) ∧
    (isFinite 0x00000001#32 = true ∧ isZero 0x00000001#32 = false ∧ sign 0x00000001#32 = false) ∧
    (isFinite 0x80000001#32 = true ∧ isZero 0x80000001#32 = false ∧ sign 0x80000001#32 = true) ∧
    (isNaN 0xFF800001#32 = true ∧ isNaN 0x7FFFFFFF#32 = true) ∧
    ((254#8 : Code) ≠ 255#8 ∧ (1#8 : Code) ≠ 0#8 ∧ (254#8 : Code) ≤ 255#8) := by decide

theorem test_witness_TinyAndLargeGammas :
    (isZero 0x31ABCC77#32 = false ∧ (0x31ABCC77#32 : B32) ≤ 0x31ABCC77#32 ∧ (1#8 : Code) ≠ 0#8) ∧
    (isZero 0x00000001#32 = false ∧ (0x00000001#32 : B32) ≤ 0x31ABCC77#32 ∧ (255#8 : Code) ≠ 0#8) ∧
    (isZero 0x44C6C000#32 = false ∧ (0x44C6C000#32 : B32) ≤ 0x44C6C000#32 ∧ (0x44C6C000#32 : B32) ≤ 0x7F7FFFFF#32 ∧
      (254#8 : Code) ≠ 255#8) ∧
    (isZero 0x7F7FFFFF#32 = false ∧ (0x44C6C000#32 : B32) ≤ 0x7F7FFFFF#32 ∧ (0#8 : Code) ≠ 255#8) := by decide

theorem test_witness_ClampCases :
    isNaN 0x7F800001#32 = true ∧ (isNaN nInf = false ∧ sign nInf = true) ∧ (isNaN nZero = false ∧ sign nZero = true) ∧
    (isNaN pZero = false ∧ sign pZero = false ∧ isZero pZero = true) ∧
    (isNaN one = false ∧ sign one = false ∧ isZero one = false ∧ one ≤ one) ∧
    (isNaN 0x3F7FFFFF#32 = false ∧ sign 0x3F7FFFFF#32 = false ∧ isZero 0x3F7FFFFF#32 = false ∧ (0x3F7FFFFF#32 : B32) < one) := by
  decide

theorem test_witness_ClampProperties :
    (isFinite nZero = true ∧ isFinite one = true ∧ val nZero ≤ val one) ∧
    (isFinite one = true ∧ sign one = false ∧ 0 ≤ val one ∧ val one ≤ 1) ∧
    (isNormalised pZero = true ∧ clamp (pow pZero qNaN) ≠ pow pZero qNaN) ∧
    (isNormalised pZero = true ∧ clamp (pow pZero nInf) ≠ pow pZero nInf) := by decide +kernel

theorem test_witness_PackIsTwoRoundings :
    isFinite 0x7F7FFFFF#32 = true ∧ isInf nInf = true ∧ isNaN qNaN = true ∧
    (isNaN nInf = false ∧ sign (packProduct nInf) = true) ∧ (isNaN nZero = false ∧ isZero (packProduct nZero) = true) ∧
    (isNaN one = false ∧ sign (packProduct one) = false ∧ f255 ≤ packProduct one) ∧
    (isNaN 0x3F7FFFFF#32 = false ∧ sign (packProduct 0x3F7FFFFF#32) = false ∧ isZero (packProduct 0x3F7FFFFF#32) = false ∧
      packProduct 0x3F7FFFFF#32 < f255) := by decide +kernel

theorem test_witness_PackIsMonotone : pInf ≤ pInf ∧ pZero ≤ pInf ∧ (0x7F7FFFFF#32 : B32) ≤ pInf := by decide

theorem test_witness_ChanIsMonotoneWithEndPoints :
    (isNaN 0x00000001#32 = false ∧ (254#8 : Code) ≤ 255#8 ∧ sign 0x00000001#32 = false ∧ isZero 0x00000001#32 = false) ∧
    (isNaN pInf = false ∧ sign pInf = false ∧ isZero pInf = false) ∧
    (isNaN nInf = false ∧ sign nInf = true) ∧ (isNaN pZero = false ∧ isZero pZero = true) := by decide

/-- A power unit, not the reference, with the properties PW1 to PW5: it returns the base for a positive exponent. -/
theorem test_witness_AnyPowerUnitKeepsThePortProperties :
    PowerProperties fun x y => if sign y then one else x := by
  have facts : ∀ c : Code, isNaN (norm c) = false ∧ sign (norm c) = false ∧ norm c ≠ nZero ∧ norm c ≤ one := by
    decide +kernel
  have base : ∀ x, isInnerBase x = true → isNaN x = false ∧ sign x = false ∧ x ≠ nZero ∧ x ≤ one := by
    intro x hx
    simp only [isInnerBase, isNormalised, Bool.and_eq_true, beq_iff_eq] at hx
    have h := facts (pack x)
    rwa [hx.1.1] at h
  have onefacts : isNaN one = false ∧ sign one = false ∧ one ≠ nZero := by decide
  constructor
  · intro x _; simp [onefacts]
  · intro x y hx _
    show isNaN (if sign y then one else x) = false ∧ sign (if sign y then one else x) = false ∧
      (if sign y then one else x) ≠ nZero
    split
    · exact onefacts
    · exact ⟨(base x hx).1, (base x hx).2.1, (base x hx).2.2.1⟩
  · intro x y hx _ hs; simpa [hs] using (base x hx).2.2.2
  · intro x y _ _ hs; simp [hs]
  · intro x x' y _ _ _ hle
    show if sign y = true then (if sign y = true then one else x') ≤ (if sign y = true then one else x)
      else (if sign y = true then one else x) ≤ (if sign y = true then one else x')
    split
    · exact BitVec.le_refl one
    · exact hle

theorem test_witness_AnyPowerUnit_classes :
    (isNaN pInf = false ∧ sign pInf = false ∧ isZero pInf = false ∧ (0#8 : Code) ≤ 255#8) ∧
    (isNaN nInf = false ∧ sign nInf = true) ∧ isNaN qNaN = true := by decide

/-- Five valid slots with legal data. -/
def fullState : State :=
  { stateWith true true true true true 0x40000000#32 [.nop] with
    s2 := ⟨one, 0x3B808081#32, pZero, one, qNaN⟩, s3 := ⟨one, qNaN, pInf, one⟩, s4 := ⟨one, pZero, 0x00000001#32, pZero⟩ }

theorem test_witness_StepKeepsSlotsLegal :
    slotsLegal fullState = true ∧ step fullState = .next (advance (hostAdvance fullState) none none) := by
  exact ⟨by decide +kernel, rfl⟩

theorem test_witness_PortBehaviourOfTheReference : 5 ≤ 5 ∧ 5 ≤ 6 := by decide

theorem test_witness_NothingShownSoonAfterReset :
    (4 < 5 ∧ 0 < 4 ∧ rstOf (bundleAt (stateWith true true true true true 0#32 [.reset]) 0) = true) ∧
    (4 < 5 ∧ 3 < 4 ∧ rstOf (bundleAt (stateWith true true true true true 0#32 [.nop, .nop, .nop, .reset]) 3) = true) := by
  decide

/-- A state in which the host writes `GAMMA` and then presents two operations that do not. -/
def writeThenIdle : State := stateWith false false false false false 0#32 [.setgamma qNaN, .nop, .apply 0#32]

theorem test_witness_GammaIsTheLatestWrite :
    0 < 3 ∧ rstOf (bundleAt writeThenIdle 0) = false ∧ cfgWeOf (bundleAt writeThenIdle 0) = true ∧
    ∀ j, 0 < j → j < 3 → rstOf (bundleAt writeThenIdle j) = false ∧ cfgWeOf (bundleAt writeThenIdle j) = false := by
  refine ⟨by decide, by decide, by decide, ?_⟩
  intro j h0 h3
  rcases (by omega : j = 1 ∨ j = 2) with rfl | rfl <;> decide

theorem test_witness_GammaStaysUntilWritten :
    ∀ j, j < 1 → rstOf (bundleAt (stateWith true false false false false 0#32 [.apply 0#32]) j) = false ∧
      cfgWeOf (bundleAt (stateWith true false false false false 0#32 [.apply 0#32]) j) = false := by
  intro j h
  obtain rfl : j = 0 := by omega
  decide

/-- A delay line of the given length with a finished word in every slot. -/
def fullPipe (latency : Nat) : PixelPipe := ⟨0#32, List.replicate latency (some 0#32), 0⟩

theorem test_witness_PortBehaviourForAnyLatency :
    (1 ≤ (fullPipe 1).line.length ∧ (fullPipe 1).line.length ≤ 1) ∧
    (1 ≤ (fullPipe 2).line.length ∧ 1 < (fullPipe 2).line.length ∧ ∃ j, j < 1 ∧ (fun _ => Instr.reset) j = Instr.reset) := by
  exact ⟨by decide, by decide, by decide, 0, by decide, rfl⟩

theorem test_witness_LatencyOnlyShiftsResults :
    1 ≤ (fullPipe 1).line.length ∧ 1 ≤ (fullPipe 7).line.length ∧ (fullPipe 1).gamma = (fullPipe 7).gamma ∧
    ∀ j : Nat, (fun _ => Instr.apply 0#32) j ≠ Instr.reset := by
  exact ⟨by decide, by decide, rfl, by simp⟩

theorem test_witness_ResetDropsPixelsInFlight :
    rstOf (presented (stateWith true true true true true 0#32 [.reset])) = true ∧ 1 ≤ 1 ∧ 5 ≤ 5 := by decide

/-- A state in which the host presents a pixel and then five idle cycles. -/
def pixelThenIdle : State :=
  stateWith false false false false false 0#32 [.apply 0#32, .nop, .nop, .nop, .nop, .nop]

theorem test_witness_DrainedSixCyclesAfterTheLastPixel :
    (opAt pixelThenIdle 0).pixel?.isSome = true ∧
    (∀ j, 0 < j → j < 6 → rstOf (bundleAt pixelThenIdle j) = false) ∧
    ∀ j, 0 < j → j < 6 → (opAt pixelThenIdle j).pixel? = none := by
  refine ⟨by decide, ?_, ?_⟩
  all_goals
    intro j h0 h6
    rcases (by omega : j = 1 ∨ j = 2 ∨ j = 3 ∨ j = 4 ∨ j = 5) with rfl | rfl | rfl | rfl | rfl <;> decide

theorem test_witness_PassShowsEveryResultInOrder :
    (stateWith true true true true true 0#32 [.setgamma one, .apply 7#32, .nop, .nop, .nop, .nop, .nop]).pending =
      traceBundles Config.latency [.pass one [7#32]] ++ [] ∧ [7#32][0]? = some (7#32 : Word) := by decide

theorem test_witness_UnspecifiedGammaIsNeverSeen :
    drained (stateWith false false false false false 0#32 [.setgamma one, .apply 7#32]) = true ∧
    drained (stateWith false false false false false qNaN [.setgamma one, .apply 7#32]) = true ∧
    setBeforeUse false ((stateWith false false false false false 0#32 [.setgamma one, .apply 7#32]).pending.map decode) = true := by
  decide
end

section
/-! The operation map of spec/30_encoding.md rule R30: one equation for each of its rows, the bits that mean something in each row,
and what two bundles that agree in those bits have in common. -/

namespace Sys2Proof

open Sys2Proof.Machine

/-! ## The rows of the operation map -/

section
variable {b : Bundle}

theorem decode_of_rst (hr : rstOf b = true) : decode b = .reset := by simp [decode, hr]

theorem decode_of_idle (hr : rstOf b = false) (hw : cfgWeOf b = false) (hv : inValidOf b = false) :
    decode b = .nop := by simp [decode, hr, hw, hv]

theorem decode_of_valid (hr : rstOf b = false) (hw : cfgWeOf b = false) (hv : inValidOf b = true) :
    decode b = .apply (pixelInOf b) := by simp [decode, hr, hw, hv]

theorem decode_of_write (hr : rstOf b = false) (hw : cfgWeOf b = true) (hv : inValidOf b = false) :
    decode b = .setgamma (cfgWdataOf b) := by simp [decode, hr, hw, hv]

theorem decode_of_valid_write (hr : rstOf b = false) (hw : cfgWeOf b = true) (hv : inValidOf b = true) :
    decode b = .applySetgamma (pixelInOf b) (cfgWdataOf b) := by simp [decode, hr, hw, hv]

/-! ## The bits that mean something -/

@[simp] theorem bitMatters_rst : bitMatters b 66 = true := by simp [bitMatters]

theorem bitMatters_cfgWe (hr : rstOf b = false) : bitMatters b 65 = true := by simp [bitMatters, hr]

theorem bitMatters_inValid (hr : rstOf b = false) : bitMatters b 64 = true := by simp [bitMatters, hr]

theorem bitMatters_cfgWdata (hr : rstOf b = false) (hw : cfgWeOf b = true) {i : Nat} (hi : i < 32) :
    bitMatters b (32 + i) = true := by
  have hlt : 32 + i < 64 := by omega
  simp [bitMatters, hr, hw, hlt]

theorem bitMatters_pixelIn (hr : rstOf b = false) (hv : inValidOf b = true) {i : Nat} (hi : i < 32) :
    bitMatters b i = true := by simp [bitMatters, hr, hv, hi]

end

/-! ## Bundles that differ in ignored bits only -/

/-- `c` holds what `b` holds in every bit that means something to the operation of `b`. -/
def AgreesWhereItMatters (b c : Bundle) : Prop := ∀ k, bitMatters b k = true → c.getLsbD k = b.getLsbD k

namespace AgreesWhereItMatters

variable {b c : Bundle} (h : AgreesWhereItMatters b c)
include h

theorem rstOf_eq : rstOf c = rstOf b := h 66 bitMatters_rst

theorem cfgWeOf_eq (hr : rstOf b = false) : cfgWeOf c = cfgWeOf b := h 65 (bitMatters_cfgWe hr)

theorem inValidOf_eq (hr : rstOf b = false) : inValidOf c = inValidOf b := h 64 (bitMatters_inValid hr)

theorem cfgWdataOf_eq (hr : rstOf b = false) (hw : cfgWeOf b = true) : cfgWdataOf c = cfgWdataOf b := by
  apply BitVec.eq_of_getLsbD_eq
  intro i hi
  simpa [cfgWdataOf, hi] using h (32 + i) (bitMatters_cfgWdata hr hw hi)

theorem pixelInOf_eq (hr : rstOf b = false) (hv : inValidOf b = true) : pixelInOf c = pixelInOf b := by
  apply BitVec.eq_of_getLsbD_eq
  intro i hi
  simpa [pixelInOf, hi] using h i (bitMatters_pixelIn hr hv hi)

/-- Row by row: the control bits that select the row agree, and so do the fields the row takes as operands. -/
theorem decode_eq : decode c = decode b := by
  cases hr : rstOf b with
  | true => rw [decode_of_rst hr, decode_of_rst (h.rstOf_eq.trans hr)]
  | false =>
    have hrc : rstOf c = false := h.rstOf_eq.trans hr
    have hwc := h.cfgWeOf_eq hr
    have hvc := h.inValidOf_eq hr
    cases hw : cfgWeOf b <;> cases hv : inValidOf b
    case false.false => rw [decode_of_idle hr hw hv, decode_of_idle hrc (hwc.trans hw) (hvc.trans hv)]
    case false.true =>
      rw [decode_of_valid hr hw hv, decode_of_valid hrc (hwc.trans hw) (hvc.trans hv), h.pixelInOf_eq hr hv]
    case true.false =>
      rw [decode_of_write hr hw hv, decode_of_write hrc (hwc.trans hw) (hvc.trans hv), h.cfgWdataOf_eq hr hw]
    case true.true =>
      rw [decode_of_valid_write hr hw hv, decode_of_valid_write hrc (hwc.trans hw) (hvc.trans hv),
        h.pixelInOf_eq hr hv, h.cfgWdataOf_eq hr hw]

end AgreesWhereItMatters

/-! ## The canonical spellings -/

theorem encode_reset : encode .reset = 0x40000000000000000#67 := by decide

theorem encode_nop : encode .nop = 0x00000000000000000#67 := by decide

/-- The control bits of `APPLY` above an empty `cfg_wdata` are one constant of 35 bits. -/
theorem encode_apply (p : Word) : encode (.apply p) = 0x100000000#35 ++ p := by
  have hconst : (0b001#3 ++ 0#32 : BitVec 35) = 0x100000000#35 := by decide
  exact congrArg (· ++ p) hconst

theorem encode_setgamma (g : B32) : encode (.setgamma g) = 0x2#3 ++ g ++ 0x00000000#32 := rfl

theorem encode_applySetgamma (p : Word) (g : B32) : encode (.applySetgamma p g) = 0x3#3 ++ g ++ p := rfl

/-- Settles O2: the rows of the map, the agreement of bundles that differ in ignored bits only, and the five spellings. -/
theorem controlBitsSelectTheOperation : Obligations.ControlBitsSelectTheOperation := by
  intro b
  exact ⟨decode_of_rst, decode_of_idle, decode_of_valid, decode_of_write, decode_of_valid_write,
    fun _ h => AgreesWhereItMatters.decode_eq h,
    encode_reset, encode_nop, encode_apply, encode_setgamma, encode_applySetgamma⟩

end Sys2Proof
end

section
/-! The output ports of a cycle (spec/30_encoding.md rule R28; spec/40_interface_ops.md rule R43): what the bundle `OB33` holds, and
that the bundle presented in the same cycle does not reach it. -/

namespace Sys2Proof.Machine

section
variable (s : State) (b : Bundle)

@[simp] theorem outValid_present : outValid (present s b) = outValid s := rfl

@[simp] theorem pixelOut_present : pixelOut (present s b) = pixelOut s := rfl

@[simp] theorem outputs_present : outputs (present s b) = outputs s := by
  rw [outputs, outValid_present, pixelOut_present, outputs]

/-- The wires of the output bundle: `pixel_out`, then `out_valid`. -/
theorem outputs_getLsbD (k : Nat) :
    (outputs s).getLsbD k =
      if k < 32 then (pixelOut s).getLsbD k else (BitVec.ofBool (outValid s)).getLsbD (k - 32) := by
  show (BitVec.ofBool (outValid s) ++ pixelOut s : BitVec (1 + 32)).getLsbD k = _
  rw [BitVec.getLsbD_append]

/-- `OB33[32]` is `out_valid`. -/
theorem outputs_bit_32 : (outputs s).getLsbD 32 = outValid s := by
  rw [outputs_getLsbD]
  simp

/-- `OB33[31:0]` is `pixel_out`. -/
theorem outputs_low_word : (outputs s).extractLsb' 0 32 = pixelOut s := by
  apply BitVec.eq_of_getLsbD_eq
  intro i hi
  simp [outputs_getLsbD, hi]

end

theorem pixelOut_of_v5 {s : State} (h : s.v5 = true) : pixelOut s = s.s5.px := by simp [pixelOut, h]

/-- Settles O14: `present` changes nothing an output is read from, and the two ports are the fields of the bundle. -/
theorem outputsDependOnTheStateAlone : Obligations.OutputsDependOnTheStateAlone := by
  intro s b
  exact ⟨outputs_present s b, outputs_bit_32 s, outputs_low_word s, rfl, pixelOut_of_v5⟩

end Sys2Proof.Machine
end

section
/-! The common clock edge of the four operations without `rst` (spec/40_interface_ops.md rules R35, R37 to R40): every slot advances
with its stage's function, and an operation's own part is slot 1 and `GAMMA`. -/

namespace Sys2Proof.Machine

/-- The common edge advances every slot, whatever enters slot 1 and whatever is written to `GAMMA` (rule R35). -/
theorem slotsAdvance_advance (s : State) (e : Option Word) (w : Option B32) : SlotsAdvance s (advance s e w) where
  valid := ⟨advance_v2 s e w, advance_v3 s e w, advance_v4 s e w, advance_v5 s e w⟩
  slot2 := advance_s2 s e w
  slot3 := advance_s3 s e w
  slot4 := advance_s4 s e w
  slot5 := advance_s5 s e w
  host := advance_pending s e w
  clock := advance_cycle s e w

/-- Every operation but `RESET` is the common edge with the pixel it accepts and the value it writes. -/
theorem exec_eq_advance {i : Instr} (hi : i ≠ .reset) (s : State) :
    exec i s = .next (advance s i.pixel? i.gamma?) := by
  rw [exec_eq, if_neg hi]

/-- What an operation that is no `RESET` and accepts no pixel does: the slots advance behind an empty slot 1, and `GAMMA` takes
the value written, or keeps its content where none is. -/
theorem exec_without_pixel {i : Instr} (hi : i ≠ .reset) (hp : i.pixel? = none) (s : State) :
    ∃ t, exec i s = .next t ∧ SlotsAdvance s t ∧ t.v1 = false ∧ t.gamma = i.gamma?.getD s.gamma := by
  refine ⟨_, exec_eq_advance hi s, slotsAdvance_advance s _ _, ?_, advance_gamma s _ _⟩
  rw [advance_v1, hp, Option.isSome_none]

/-- Settles O9: `NOP` accepts no pixel and writes nothing. -/
theorem nopAdvancesAndKeepsGamma : Obligations.NopAdvancesAndKeepsGamma :=
  exec_without_pixel (i := .nop) Instr.noConfusion rfl

/-- Settles O11: `SETGAMMA g` accepts no pixel and writes `g`, whatever pattern `g` is. -/
theorem setgammaWritesGamma : Obligations.SetgammaWritesGamma := fun g =>
  exec_without_pixel (i := .setgamma g) Instr.noConfusion rfl

end Sys2Proof.Machine
end

section
/-! The function `apply` (spec/40_interface_ops.md rules R41, R42): the five stages composed, and its form lane by lane. -/

namespace Sys2Proof.Machine

/-- The stages composed: each colour code meets `NORM`, `POW` with the captured gamma and `CLAMP`; the alpha code meets `NORM`
alone. -/
theorem applyPixel_eq_repack (p : Word) (g : B32) :
    applyPixel p g = repack (clamp (pow (norm (redOf p)) g)) (clamp (pow (norm (greenOf p)) g))
      (clamp (pow (norm (blueOf p)) g)) (norm (alphaOf p)) := by
  simp only [applyPixel, unpack, stage2, stage3, stage4, stage5]

/-- `REPACK` packs each lane by itself, so `apply` is `chan` in the colour lanes and `alpha` in the alpha lane. -/
theorem applyPixel_eq_packPixel (p : Word) (g : B32) :
    applyPixel p g =
      packPixel (chan (redOf p) g) (chan (greenOf p) g) (chan (blueOf p) g) (alphaLane (alphaOf p)) := by
  rw [applyPixel_eq_repack]
  simp only [repack, chan, alphaLane]

/-- Settles O33: the composition of the stages, the two functions of one code, and the form lane by lane. -/
theorem applyWorksLaneByLane : Obligations.ApplyWorksLaneByLane :=
  ⟨applyPixel_eq_repack, fun _ _ => ⟨rfl, rfl⟩, applyPixel_eq_packPixel⟩

end Sys2Proof.Machine
end

section
/-! Stage 1, `UNPACK` (spec/41_rgba_unpack.md rule R46): a lane of a packed pixel is the code put there, and the four codes of a
pixel put together are the pixel. -/

namespace Sys2Proof.Machine

/-! ## The lanes of a packed pixel -/

section
variable (r g b a : Code)

@[simp] theorem redOf_packPixel : redOf (packPixel r g b a) = r :=
  BitVec.extractLsb'_append_eq_right

/-- Above the red code `G` is the lowest byte. -/
@[simp] theorem greenOf_packPixel : greenOf (packPixel r g b a) = g :=
  calc (a ++ b ++ g ++ r).extractLsb' 8 8
    _ = (a ++ b ++ g).extractLsb' 0 8 := BitVec.extractLsb'_append_eq_of_le (by decide)
    _ = g := BitVec.extractLsb'_append_eq_right

/-- Above the red and the green code `B` is the lowest byte. -/
@[simp] theorem blueOf_packPixel : blueOf (packPixel r g b a) = b :=
  calc (a ++ b ++ g ++ r).extractLsb' 16 8
    _ = (a ++ b ++ g).extractLsb' 8 8 := BitVec.extractLsb'_append_eq_of_le (by decide)
    _ = (a ++ b).extractLsb' 0 8 := BitVec.extractLsb'_append_eq_of_le (by decide)
    _ = b := BitVec.extractLsb'_append_eq_right

/-- Above the three colour codes `A` is what is left. -/
@[simp] theorem alphaOf_packPixel : alphaOf (packPixel r g b a) = a :=
  calc (a ++ b ++ g ++ r).extractLsb' 24 8
    _ = (a ++ b ++ g).extractLsb' 16 8 := BitVec.extractLsb'_append_eq_of_le (by decide)
    _ = (a ++ b).extractLsb' 8 8 := BitVec.extractLsb'_append_eq_of_le (by decide)
    _ = a := BitVec.extractLsb'_append_eq_left

end

/-! ## A pixel from its codes -/

/-- The four fields are adjacent, so they join from the top down: to 16 bits, to 24 bits, to the whole pixel. -/
theorem packPixel_codes (p : Word) : packPixel (redOf p) (greenOf p) (blueOf p) (alphaOf p) = p := by
  have join16 : alphaOf p ++ blueOf p = p.extractLsb' 16 16 :=
    BitVec.extractLsb'_append_extractLsb'_eq_extractLsb' rfl
  have join24 : p.extractLsb' 16 16 ++ greenOf p = p.extractLsb' 8 24 :=
    BitVec.extractLsb'_append_extractLsb'_eq_extractLsb' rfl
  have join32 : p.extractLsb' 8 24 ++ redOf p = p :=
    BitVec.extractLsb'_append_extractLsb' (w := 24)
  rw [packPixel, join16, join24, join32]

/-- Settles O18: the codes are the four bytes by the definition of the lanes; putting them together and taking them apart again
are inverse to each other. -/
theorem unpackIsABijection : Obligations.UnpackIsABijection :=
  ⟨fun _ _ => rfl, packPixel_codes, fun r g b a =>
    ⟨redOf_packPixel r g b a, greenOf_packPixel r g b a, blueOf_packPixel r g b a, alphaOf_packPixel r g b a⟩⟩

end Sys2Proof.Machine
end

section
/-! Patterns of sign 0 and `RNE32` of a nonnegative rational (spec/00_scope.md rule R10). Values are counted in units of 2^-150,
as in the model; which pattern a quotient rounds to is read off the half way points beside it. -/

namespace Sys2Proof.Machine

/-! ## Patterns of sign 0 -/

section
variable {b : B32}

theorem magnitude_of_sign (h : sign b = false) : magnitude b = b.toNat := by
  rw [sign_eq, decide_eq_false_iff_not] at h
  exact Nat.mod_eq_of_lt (by omega)

theorem units_of_sign (h : sign b = false) : units b = patternUnits b.toNat := by rw [units, magnitude_of_sign h]

theorem val_of_sign (h : sign b = false) : val b = patternUnits b.toNat / 2 ^ 150 := by
  rw [val_eq_units, h, units_of_sign h]
  simp

theorem val_lt_val {a : B32} (ha : sign a = false) (hb : sign b = false) (h : a < b) : val a < val b := by
  rw [val_of_sign ha, val_of_sign hb]
  gcongr
  exact patternUnits_strictMono h

theorem isNaN_of_isFinite (h : isFinite b = true) : isNaN b = false := by simp_all [isFinite, isNaN]

theorem isInf_of_isFinite (h : isFinite b = true) : isInf b = false := by simp_all [isFinite, isInf]

theorem isZero_iff : isZero b = true ↔ magnitude b = 0 := by
  rw [isZero, beq_iff_eq, ← BitVec.toNat_inj]
  simp [magnitude]

theorem units_eq_zero_iff : units b = 0 ↔ isZero b = true := by
  rw [isZero_iff]
  exact patternUnits_strictMono.injective.eq_iff (b := 0)

end

/-! ## Half way points -/

theorem patternUnits_lt_midpoint (p : Nat) : patternUnits p < (midpoint p).toNat := by
  have h := two_mul_midpoint p
  have hlt : patternUnits p < patternUnits (p + 1) := patternUnits_strictMono p.lt_succ_self
  omega

theorem midpoint_lt_patternUnits (p : Nat) : (midpoint p).toNat < patternUnits (p + 1) := by
  have h := two_mul_midpoint p
  have hlt : patternUnits p < patternUnits (p + 1) := patternUnits_strictMono p.lt_succ_self
  omega

section
variable {e m : Nat}

theorem signif_normal (hlow : 2 ^ 23 ≤ m) (hhigh : m < 2 ^ 24) : signif (e * 2 ^ 23 + m) = m := by
  unfold signif
  rw [if_neg (by omega)]
  omega

theorem scaleOf_normal (hlow : 2 ^ 23 ≤ m) (hhigh : m < 2 ^ 24) : scaleOf (e * 2 ^ 23 + m) = e + 1 := by
  unfold scaleOf
  rw [if_neg (by omega)]
  omega

/-- The half way point above the significand `m` at biased exponent `e + 1`. -/
theorem midpoint_normal (hlow : 2 ^ 23 ≤ m) (hhigh : m < 2 ^ 24) :
    (midpoint (e * 2 ^ 23 + m)).toNat = (2 * m + 1) * 2 ^ e := by
  rw [Scaled.toNat, midpoint, signif_normal hlow hhigh, scaleOf_normal hlow hhigh, Nat.add_sub_cancel]

/-- The significand `m` at biased exponent `e + 1`; the bound itself stands for the first pattern of the next exponent. -/
theorem patternUnits_normal (hlow : 2 ^ 23 ≤ m) (hhigh : m ≤ 2 ^ 24) :
    patternUnits (e * 2 ^ 23 + m) = m * 2 ^ (e + 1) := by
  rcases hhigh.lt_or_eq with hlt | rfl
  · rw [patternUnits, signif_normal hlow hlt, scaleOf_normal hlow hlt]
  · rw [show e * 2 ^ 23 + 2 ^ 24 = (e + 1) * 2 ^ 23 + 2 ^ 23 by ring, patternUnits,
      signif_normal le_rfl (by norm_num), scaleOf_normal le_rfl (by norm_num), pow_succ 2 (e + 1)]
    ring

end

/-! ## The rounded quotient -/

theorem compares_ratioCompare (num : Nat) {den : Nat} (hden : 0 < den) :
    Compares (ratioCompare num den) ((num : ℝ) / den) := by
  have hpos : (0 : ℝ) < den := by exact_mod_cast hden
  intro a
  rw [ratioCompare, compare_lt_iff_lt, compare_gt_iff_gt, div_mul_eq_mul_div, div_lt_iff₀ hpos, lt_div_iff₀ hpos]
  norm_cast

/-- Whether the quotient rounds to a pattern above `r`, as an inequality of natural numbers. -/
theorem roundsAbove_ratioCompare_iff (num den r : Nat) :
    roundsAbove (ratioCompare num den) r = true ↔
      (midpoint r).toNat * den < num * 2 ^ 150 ∨ (midpoint r).toNat * den = num * 2 ^ 150 ∧ r % 2 = 1 := by
  rcases Nat.lt_trichotomy ((midpoint r).toNat * den) (num * 2 ^ 150) with h | h | h
  · have hcmp : ratioCompare num den (midpoint r) = .gt := Nat.compare_eq_gt.mpr h
    rw [roundsAbove, hcmp]
    exact iff_of_true rfl (.inl h)
  · have hcmp : ratioCompare num den (midpoint r) = .eq := Nat.compare_eq_eq.mpr h.symm
    rw [roundsAbove, hcmp, beq_iff_eq, or_iff_right h.not_lt, and_iff_right h]
  · have hcmp : ratioCompare num den (midpoint r) = .lt := Nat.compare_eq_lt.mpr h
    rw [roundsAbove, hcmp]
    exact iff_of_false Bool.false_ne_true (not_or.mpr ⟨h.not_gt, fun he => h.ne' he.1⟩)

section
variable (num : Nat) {den : Nat} (hden : 0 < den)
include hden

/-- The quotient 0 needs no case of its own: the search for the pattern finds +0 as well. -/
theorem toNat_rne32 : (rne32 false num den).toNat = roundPattern (ratioCompare num den) := by
  have hle := roundPattern_le (ratioCompare num den)
  unfold rne32
  split
  case isTrue h =>
    rw [roundPattern_exact (p := 0) (compares_ratioCompare num hden) (by norm_num) (by simp [h, patternUnits, signif])]
    rfl
  case isFalse => rw [if_neg Bool.false_ne_true, Nat.zero_add, BitVec.toNat_ofNat]; omega

theorem sign_rne32 : sign (rne32 false num den) = false := by
  have hle := roundPattern_le (ratioCompare num den)
  rw [sign_eq, toNat_rne32 num hden, decide_eq_false_iff_not]
  omega

theorem isRNE32_rne32 : IsRNE32 ((num : ℝ) / den) (rne32 false num den) := by
  rcases num.eq_zero_or_pos with rfl | hnum
  · rw [Nat.cast_zero, zero_div]
    exact ⟨fun _ => rfl, fun h => absurd h (by norm_num), fun h => absurd h (by norm_num), fun h => absurd rfl h⟩
  · have hq : (0 : ℝ) < num / den := div_pos (by exact_mod_cast hnum) (by exact_mod_cast hden)
    simpa [rne32, hnum.ne'] using roundPattern_isRNE32 _ _ hq (compares_ratioCompare num hden)

theorem rne32_mono {num' : Nat} (h : num ≤ num') : rne32 false num den ≤ rne32 false num' den := by
  rw [BitVec.le_def, toNat_rne32 num hden, toNat_rne32 num' hden]
  refine roundPattern_mono (compares_ratioCompare num hden) (compares_ratioCompare num' hden) ?_
  gcongr

/-- A quotient that rounds above a pattern rounds above every pattern before it. -/
theorem roundsAbove_ratioCompare_of_lt {r r' : Nat} (hlt : r < r') (h : roundsAbove (ratioCompare num den) r' = true) :
    roundsAbove (ratioCompare num den) r = true := by
  have hmid : (midpoint r).toNat * den < (midpoint r').toNat * den :=
    Nat.mul_lt_mul_of_pos_right (midpoint_strictMono hlt) hden
  rw [roundsAbove_ratioCompare_iff] at h ⊢
  omega

/-- The quotient rounds to a pattern above `r` exactly when it lies above the half way point of `r` and the next pattern, or on it
while `r` is odd. -/
theorem lt_toNat_rne32_iff {r : Nat} (hr : r < 0x7F800000) :
    r < (rne32 false num den).toNat ↔
      (midpoint r).toNat * den < num * 2 ^ 150 ∨ (midpoint r).toNat * den = num * 2 ^ 150 ∧ r % 2 = 1 := by
  obtain ⟨-, hlow, hhigh⟩ := roundPattern_boundary (ratioCompare num den)
  rw [toNat_rne32 num hden, ← roundsAbove_ratioCompare_iff]
  generalize roundPattern (ratioCompare num den) = R at *
  constructor
  · intro hlt
    have hR := hlow.resolve_left (by omega)
    rcases (Nat.le_sub_one_of_lt hlt).lt_or_eq with h | rfl
    · exact roundsAbove_ratioCompare_of_lt num hden h hR
    · exact hR
  · intro h
    by_contra hle
    have hR := hhigh.resolve_left (by omega)
    rcases (not_lt.mp hle).lt_or_eq with hlt | rfl
    · rw [roundsAbove_ratioCompare_of_lt num hden hlt h] at hR; cases hR
    · rw [h] at hR; cases hR

/-- A quotient between the half way points on the two sides of a pattern rounds to that pattern. -/
theorem toNat_rne32_of_between {p : Nat} (hp : p + 1 < 0x7F800000) (lo : (midpoint p).toNat * den < num * 2 ^ 150)
    (hi : num * 2 ^ 150 < (midpoint (p + 1)).toNat * den) : (rne32 false num den).toNat = p + 1 := by
  have hge := (lt_toNat_rne32_iff num hden (by omega)).mpr (.inl lo)
  have hle := (lt_toNat_rne32_iff num hden hp).not.mpr (by omega)
  omega

theorem toNat_rne32_of_exact {p : Nat} (hp : p < 0x7F800000) (h : num * 2 ^ 150 = patternUnits p * den) :
    (rne32 false num den).toNat = p := by
  have hne : (den : ℝ) ≠ 0 := by exact_mod_cast hden.ne'
  rw [toNat_rne32 num hden]
  refine roundPattern_exact (compares_ratioCompare num hden) hp ?_
  rw [div_mul_eq_mul_div, div_eq_iff hne]
  exact_mod_cast h

end

theorem rint_mul_self (n : Nat) {den : Nat} (hden : 0 < den) : rint (n * den) den = n := by
  have hlt : compare 0 den = .lt := compare_lt_iff_lt.mpr hden
  simp [rint, hden, hlt]

end Sys2Proof.Machine
end

section
/-! Stage 2, `NORM` (spec/42_channel_normalizer.md rules R48 to R50). Shift a nonzero code up until its leading one is bit 7: a byte
`n` of 128 to 255. As `1/255 = 2^-8 + 2^-16 + ...`, the quotient `c / 255` in binary is this byte repeated for ever. Three copies
of it fill the 24 bits of the significand, and what is cut off is `n / 255` of the last place: more than half, so the rounding goes
up. -/

namespace Sys2Proof.Machine

/-! ## The leading byte of a code, and two patterns built from it -/

/-- The position of the leading one of a nonzero code. -/
def topBit (c : Code) : Nat := c.toNat.log2

/-- A nonzero code shifted up until its leading one is bit 7. -/
def leadingByte (c : Code) : Nat := c.toNat * 2 ^ (7 - topBit c)

/-- The pattern of `NORM(c)` for a nonzero code: three copies of the leading byte, rounded up. -/
def normPattern (c : Code) : Nat := (topBit c + 118) * 2 ^ 23 + leadingByte c * 0x010101 + 1

/-- Half of the last place of `NORM(c)`, in units of 2^-150. -/
def halfPlace (c : Code) : Nat := 2 ^ (topBit c + 118)

/-- The pattern of the integer `c`, for a nonzero code. -/
def integerPattern (c : Code) : Nat := (topBit c + 126) * 2 ^ 23 + leadingByte c * 2 ^ 16

theorem halfPlace_pos (c : Code) : 0 < halfPlace c := Nat.two_pow_pos _

theorem sign_norm (c : Code) : sign (norm c) = false := sign_rne32 _ (by norm_num)

section
variable {c : Code} (hc : c ≠ 0#8)
include hc

theorem topBit_le : topBit c ≤ 7 :=
  Nat.le_of_lt_succ ((Nat.log2_lt (BitVec.toNat_ne_iff_ne.mpr hc)).mpr c.isLt)

/-- Shifting up by `7 - k` and then by `k` is shifting up by 7. -/
theorem leadingByte_mul : leadingByte c * 2 ^ topBit c = c.toNat * 2 ^ 7 := by
  rw [leadingByte, Nat.mul_assoc, ← pow_add, Nat.sub_add_cancel (topBit_le hc)]

theorem leadingByte_ge : 128 ≤ leadingByte c := by
  have h := Nat.mul_le_mul_right (2 ^ 7) (Nat.log2_self_le (BitVec.toNat_ne_iff_ne.mpr hc))
  rw [← leadingByte_mul hc, Nat.mul_comm] at h
  exact Nat.le_of_mul_le_mul_right h (Nat.two_pow_pos _)

theorem leadingByte_le : leadingByte c ≤ 255 := by
  have h := Nat.mul_lt_mul_of_pos_right (Nat.lt_log2_self (n := c.toNat)) (Nat.two_pow_pos 7)
  rw [← leadingByte_mul hc, pow_succ, Nat.mul_assoc, Nat.mul_comm] at h
  exact Nat.le_of_lt_succ (Nat.lt_of_mul_lt_mul_left h)

/-- A byte that was shifted is even, so the leading byte is 255 for the code 255 alone. -/
theorem leadingByte_lt (h255 : c ≠ 255#8) : leadingByte c < 255 := by
  refine lt_of_le_of_ne (leadingByte_le hc) fun h => ?_
  unfold leadingByte at h
  cases hk : 7 - topBit c with
  | zero => exact h255 (BitVec.eq_of_toNat_eq (by simpa [hk] using h))
  | succ k => rw [hk, pow_succ, ← Nat.mul_assoc] at h; omega

/-- The code in units of 2^-150. -/
theorem code_units : c.toNat * 2 ^ 150 = leadingByte c * 2 ^ 25 * halfPlace c := by
  rw [show 2 ^ 150 = 2 ^ 7 * 2 ^ 143 by norm_num, ← Nat.mul_assoc, ← leadingByte_mul hc, halfPlace, pow_add]
  ring

theorem normPattern_units : patternUnits (normPattern c) = (leadingByte c * 0x010101 + 1) * 2 * halfPlace c := by
  have hlow := leadingByte_ge hc
  have hhigh := leadingByte_le hc
  rw [normPattern, Nat.add_assoc, patternUnits_normal (by omega) (by omega), halfPlace, pow_succ']
  ring

/-- Multiplied by 255, the value of the pattern is the code and `255 - n` of the last place. -/
theorem normPattern_units_mul :
    patternUnits (normPattern c) * 255 = c.toNat * 2 ^ 150 + (255 - leadingByte c) * 2 * halfPlace c := by
  have hhigh := leadingByte_le hc
  rw [normPattern_units hc, code_units hc, ← Nat.add_mul, Nat.mul_right_comm]
  exact congrArg (· * halfPlace c) (by omega)

theorem midpoint_below_normPattern :
    (midpoint ((topBit c + 118) * 2 ^ 23 + leadingByte c * 0x010101)).toNat =
      (2 * (leadingByte c * 0x010101) + 1) * halfPlace c := by
  have hlow := leadingByte_ge hc
  have hhigh := leadingByte_le hc
  exact midpoint_normal (by omega) (by omega)

theorem midpoint_above_normPattern (hn : leadingByte c < 255) :
    (midpoint (normPattern c)).toNat = (2 * (leadingByte c * 0x010101) + 3) * halfPlace c := by
  have hlow := leadingByte_ge hc
  rw [normPattern, Nat.add_assoc, midpoint_normal (by omega) (by omega), halfPlace, Nat.mul_add]

theorem normPattern_lt : normPattern c < 0x7F800000 := by
  have hk := topBit_le hc
  have hhigh := leadingByte_le hc
  unfold normPattern
  omega

theorem integerPattern_units : patternUnits (integerPattern c) = c.toNat * 2 ^ 150 := by
  have hlow := leadingByte_ge hc
  have hhigh := leadingByte_le hc
  rw [code_units hc, integerPattern, patternUnits_normal (by omega) (by omega), halfPlace, pow_add, pow_add, pow_add]
  ring

theorem midpoint_integerPattern : (midpoint (integerPattern c)).toNat = c.toNat * 2 ^ 150 + 2 ^ 8 * halfPlace c := by
  have hlow := leadingByte_ge hc
  have hhigh := leadingByte_le hc
  rw [code_units hc, integerPattern, midpoint_normal (by omega) (by omega), halfPlace, pow_add, pow_add]
  ring

theorem integerPattern_lt : integerPattern c < 0x7F800000 := by
  have hk := topBit_le hc
  have hhigh := leadingByte_le hc
  unfold integerPattern
  omega

/-! ## The pattern of a quotient -/

/-- The quotient lies above the half way point below the pattern, as `n / 255` of the last place is more than half of it, and
not above the pattern itself. -/
theorem toNat_norm : (norm c).toNat = normPattern c := by
  have hlow := leadingByte_ge hc
  have hmul := normPattern_units_mul hc
  have habove := patternUnits_lt_midpoint (normPattern c)
  refine toNat_rne32_of_between _ (by norm_num) (normPattern_lt hc) ?_ ?_
  · rw [midpoint_below_normPattern hc, code_units hc, Nat.mul_right_comm]
    exact Nat.mul_lt_mul_of_pos_right (by omega) (halfPlace_pos c)
  · rw [← normPattern]
    omega

/-- The relative error of the quotient. -/
theorem val_norm :
    val (norm c) = c.toNat / 255 + c.toNat / 255 * ((255 - leadingByte c) / (leadingByte c * 2 ^ 24)) := by
  have hn : (leadingByte c : ℚ) ≠ 0 := by have hlow := leadingByte_ge hc; positivity
  have hcode : (c.toNat : ℚ) * 2 ^ 150 = leadingByte c * 2 ^ 25 * halfPlace c := by exact_mod_cast code_units hc
  rw [val_of_sign (sign_norm c), toNat_norm hc, normPattern_units hc,
    eq_div_of_mul_eq (by positivity) hcode]
  push_cast
  generalize (halfPlace c : ℚ) = H
  field_simp
  ring

theorem toNat_rne32_code : (rne32 false c.toNat 1).toNat = integerPattern c :=
  toNat_rne32_of_exact _ one_pos (integerPattern_lt hc) (by rw [integerPattern_units hc, Nat.mul_one])

/-- The product with the rounded reciprocal holds the same three copies of the byte, but where the quotient goes on with `n / 255`
of the last place it has `n / 128`. From the byte 192 on that reaches the half way point above `NORM(c)`, whose pattern is odd
when they meet. -/
theorem norm_ne_reciprocal_iff_of_inner (h255 : c ≠ 255#8) :
    norm c ≠ rne32 false (c.toNat * 0x808081) (2 ^ 31) ↔ 192 ≤ leadingByte c := by
  have hlow := leadingByte_ge hc
  have hlt := leadingByte_lt hc h255
  have hpos := halfPlace_pos c
  have hprod : c.toNat * 0x808081 * 2 ^ 150 = leadingByte c * 2 ^ 25 * 0x808081 * halfPlace c := by
    rw [Nat.mul_right_comm, code_units hc, Nat.mul_right_comm]
  rw [ne_eq, ← BitVec.toNat_inj, toNat_norm hc]
  constructor
  · contrapose!
    intro hn
    refine (toNat_rne32_of_between _ (by norm_num) (normPattern_lt hc) ?_ ?_).symm
    · rw [midpoint_below_normPattern hc, hprod, Nat.mul_right_comm]
      exact Nat.mul_lt_mul_of_pos_right (by omega) hpos
    · rw [← normPattern, midpoint_above_normPattern hc hlt, hprod, Nat.mul_right_comm _ (halfPlace c)]
      exact Nat.mul_lt_mul_of_pos_right (by omega) hpos
  · intro hn
    refine ((lt_toNat_rne32_iff _ (by norm_num) (normPattern_lt hc)).mpr ?_).ne
    rw [midpoint_above_normPattern hc hlt, hprod, Nat.mul_right_comm _ (halfPlace c), normPattern]
    rcases hn.lt_or_eq with hn | hn
    · exact .inl (Nat.mul_lt_mul_of_pos_right (by omega) hpos)
    · have htie : (2 * (leadingByte c * 0x010101) + 3) * 2 ^ 31 = leadingByte c * 2 ^ 25 * 0x808081 := by norm_num [← hn]
      exact .inr ⟨by rw [htie], by omega⟩

end

/-! ## `NORM` on every code -/

theorem norm_zero : norm 0#8 = pZero := rfl

theorem norm_255 : norm 255#8 = one :=
  BitVec.eq_of_toNat_eq (toNat_norm (by decide))

theorem norm_mono {c c' : Code} (h : c ≤ c') : norm c ≤ norm c' := rne32_mono _ (by norm_num) h

section
variable (c : Code)

theorem norm_le_one : norm c ≤ one := norm_255 ▸ norm_mono (Nat.le_of_lt_succ c.isLt)

theorem isFinite_norm : isFinite (norm c) = true := by
  rw [isFinite_iff, magnitude_of_sign (sign_norm c)]
  exact lt_of_le_of_lt (norm_le_one c) (by decide)

theorem isSubnormal_norm : isSubnormal (norm c) = false := by
  by_cases hc : c = 0#8
  · subst hc; rfl
  · have hexp : biasedExp (norm c) ≠ 0#8 := by
      rw [← BitVec.toNat_ne_iff_ne, ← magnitude_div, magnitude_of_sign (sign_norm c), toNat_norm hc, normPattern,
        BitVec.toNat_ofNat]
      omega
    simp [isSubnormal, hexp]

/-- The integer `c` is a binary32 value, so rounding keeps it. -/
theorem units_rne32_code : units (rne32 false c.toNat 1) = c.toNat * 2 ^ 150 := by
  rw [units_of_sign (sign_rne32 _ one_pos)]
  by_cases hc : c = 0#8
  · subst hc; rfl
  · rw [toNat_rne32_code hc, integerPattern_units hc]

theorem val_rne32_code : val (rne32 false c.toNat 1) = c.toNat := by
  have hsign := sign_rne32 c.toNat one_pos
  rw [val_of_sign hsign, ← units_of_sign hsign, units_rne32_code, Nat.cast_mul, Nat.cast_pow, Nat.cast_ofNat,
    mul_div_cancel_right₀ _ (by positivity)]

/-! ## Back by `PACK` -/

/-- The product by 255 undoes the division: what the quotient was rounded up by is, times 255, less than half of the last place
of `c`, and the second rounding takes it away. -/
theorem packProduct_norm : packProduct (norm c) = rne32 false c.toNat 1 := by
  rw [packProduct, isInf_of_isFinite (isFinite_norm c), if_neg Bool.false_ne_true, sign_norm, units_of_sign (sign_norm c)]
  by_cases hc : c = 0#8
  · subst hc; rfl
  have hpos := Nat.two_pow_pos 150
  have hmid := midpoint_integerPattern hc
  have hunits := integerPattern_units hc
  have hlt := integerPattern_lt hc
  have hrem : (255 - leadingByte c) * 2 * halfPlace c < 2 ^ 8 * halfPlace c :=
    Nat.mul_lt_mul_of_pos_right (by have hlow := leadingByte_ge hc; omega) (halfPlace_pos c)
  obtain ⟨p, hp⟩ : ∃ p, integerPattern c = p + 1 := ⟨integerPattern c - 1, by unfold integerPattern; omega⟩
  have hbelow := midpoint_lt_patternUnits p
  apply BitVec.eq_of_toNat_eq
  rw [toNat_rne32_code hc, toNat_norm hc, normPattern_units_mul hc]
  rw [hp] at hmid hunits hlt ⊢
  exact toNat_rne32_of_between _ hpos hlt (Nat.mul_lt_mul_of_pos_right (by omega) hpos)
    (Nat.mul_lt_mul_of_pos_right (by omega) hpos)

/-- `PACK` gives every code back: the product is the code itself, on which saturation and the second rounding have no effect. -/
theorem pack_norm : pack (norm c) = c := by
  have hsign := sign_rne32 c.toNat one_pos
  have hunits := units_rne32_code c
  have hmax : f255 ≤ rne32 false c.toNat 1 ↔ 255 ≤ c.toNat := by
    rw [BitVec.le_def, ← patternUnits_strictMono.le_iff_le, ← units_of_sign hsign, hunits,
      show patternUnits f255.toNat = 255 * 2 ^ 150 by decide]
    exact Nat.mul_le_mul_right_iff (Nat.two_pow_pos 150)
  rw [pack, isNaN_of_isFinite (isFinite_norm c), packProduct_norm, hsign, if_neg Bool.false_ne_true, Bool.false_or]
  apply BitVec.eq_of_toNat_eq
  split_ifs with hz hm
  · rw [← units_eq_zero_iff, hunits] at hz
    exact ((Nat.mul_eq_zero.mp hz).resolve_right (Nat.two_pow_pos 150).ne').symm
  · exact le_antisymm (hmax.mp hm) (Nat.le_of_lt_succ c.isLt)
  · rw [hunits, rint_mul_self _ (by norm_num), BitVec.toNat_ofNat, Nat.mod_eq_of_lt c.isLt]

end

theorem norm_injective : Function.Injective norm := Function.LeftInverse.injective pack_norm

theorem norm_strictMono {c c' : Code} (h : c < c') : norm c < norm c' :=
  Nat.lt_of_le_of_ne (norm_mono (BitVec.le_of_lt h)) fun he =>
    BitVec.ne_of_lt h (norm_injective (BitVec.eq_of_toNat_eq he))

theorem isNormalised_iff (x : B32) : isNormalised x = true ↔ ∃ c, norm c = x := by
  rw [isNormalised, beq_iff_eq]
  exact ⟨fun h => ⟨pack x, h⟩, fun ⟨c, hc⟩ => hc ▸ congrArg norm (pack_norm c)⟩

/-! ## The inner codes -/

section
variable {c : Code} (h0 : c ≠ 0#8) (h255 : c ≠ 255#8)
include h0 h255

theorem norm_inner_bounds : 0x3B808081#32 ≤ norm c ∧ norm c ≤ 0x3F7EFEFF#32 := by
  have hfirst : norm 1#8 = 0x3B808081#32 := BitVec.eq_of_toNat_eq (toNat_norm (by decide))
  have hlast : norm 254#8 = 0x3F7EFEFF#32 := BitVec.eq_of_toNat_eq (toNat_norm (by decide))
  rw [← hfirst, ← hlast]
  exact ⟨norm_mono (by bv_omega), norm_mono (by bv_omega)⟩

/-- How far the quotient is rounded up: the relative error falls with the leading byte, from 127 / 2^31 at 128. -/
theorem val_norm_bounds :
    (c.toNat : ℚ) / 255 < val (norm c) ∧ val (norm c) - (c.toNat : ℚ) / 255 < (c.toNat : ℚ) / 255 / 2 ^ 24 ∧
    val (norm c) - (c.toNat : ℚ) / 255 ≤ (c.toNat : ℚ) / 255 * (592 / 10 ^ 10) := by
  have hlow : (128 : ℚ) ≤ leadingByte c := by exact_mod_cast leadingByte_ge h0
  have hhigh : (leadingByte c : ℚ) < 255 := by exact_mod_cast leadingByte_lt h0 h255
  have hcode : (0 : ℚ) < c.toNat := by exact_mod_cast Nat.pos_of_ne_zero (BitVec.toNat_ne_iff_ne.mpr h0)
  have hq : (0 : ℚ) < c.toNat / 255 := by positivity
  have hden : (0 : ℚ) < leadingByte c * 2 ^ 24 := by positivity
  rw [val_norm h0, add_sub_cancel_left, ← mul_one_div (_ / 255) (2 ^ 24)]
  refine ⟨lt_add_of_pos_right _ (mul_pos hq (div_pos (by linarith) hden)), mul_lt_mul_of_pos_left ?_ hq,
    mul_le_mul_of_nonneg_left ?_ hq.le⟩
  · rw [div_lt_div_iff₀ hden (by norm_num)]
    linarith
  · rw [div_le_div_iff₀ hden (by norm_num)]
    linarith

end

/-! ## The codes on which the quotient is exact, and those on which the reciprocal fails -/

theorem val_norm_eq_iff (c : Code) : val (norm c) = c.toNat / 255 ↔ c = 0#8 ∨ c = 255#8 := by
  constructor
  · intro h
    by_contra! hc
    exact (val_norm_bounds hc.1 hc.2).1.ne' h
  · rintro (rfl | rfl)
    · rw [norm_zero, val_of_sign rfl, show patternUnits pZero.toNat = 0 by decide]
      norm_num
    · rw [norm_255, val_of_sign rfl, show patternUnits one.toNat = 2 ^ 150 by decide]
      norm_num

theorem norm_ne_reciprocal_iff (c : Code) :
    norm c ≠ rne32 false (c.toNat * 0x808081) (2 ^ 31) ↔ 192 ≤ leadingByte c ∧ c ≠ 255#8 := by
  by_cases h0 : c = 0#8
  · subst h0; decide
  by_cases h255 : c = 255#8
  · subst h255; decide +kernel
  rw [norm_ne_reciprocal_iff_of_inner h0 h255, and_iff_left h255]

/-- A count over the codes as numbers, by a test that says the same of a code. -/
theorem length_filter_codes {p : Nat → Bool} {q : Code → Bool} (h : ∀ c : Code, p c.toNat = q c) :
    ((List.range 256).filter p).length = ((List.range 256).filter fun n => q (BitVec.ofNat 8 n)).length := by
  refine congrArg List.length (List.filter_congr fun n hn => ?_)
  rw [← h, BitVec.toNat_ofNat, Nat.mod_eq_of_lt (List.mem_range.mp hn)]

/-- Settles O20. Of the two counts, the first is that of the codes but 255 with leading byte from 192 on, the second that of the
inner codes. -/
theorem normIsTheRoundedQuotient : Obligations.NormIsTheRoundedQuotient := by
  refine ⟨fun c => by exact_mod_cast isRNE32_rne32 c.toNat (den := 255) (by norm_num), norm_zero, norm_255,
    fun c => ⟨sign_norm c, isFinite_norm c, isSubnormal_norm c⟩, ?_, ?_⟩
  · rw [length_filter_codes (q := fun c => 192 ≤ leadingByte c && c != 255#8) fun c => ?_]
    · decide +kernel
    · rw [BitVec.ofNat_toNat, BitVec.setWidth_eq, Bool.eq_iff_iff, bne_iff_ne, Bool.and_eq_true, decide_eq_true_iff,
        bne_iff_ne]
      exact norm_ne_reciprocal_iff c
  · rw [length_filter_codes (q := fun c => c != 0#8 && c != 255#8) fun c => ?_]
    · decide +kernel
    · rw [BitVec.ofNat_toNat, BitVec.setWidth_eq, Bool.eq_iff_iff, bne_iff_ne, Bool.and_eq_true, bne_iff_ne, bne_iff_ne,
        ← not_or]
      exact (val_norm_eq_iff c).not

/-- The table of rule R49 is the leading byte three times, rounded up. -/
theorem normTable_eq : normTable = 0 :: (List.range 255).map fun n => normPattern (BitVec.ofNat 8 (n + 1)) := by
  decide +kernel

/-- Settles O19: past the entry of code 0, the table lists the pattern that the quotient was shown to have. -/
theorem normMatchesTheTable : Obligations.NormMatchesTheTable := by
  intro c
  by_cases hc : c = 0#8
  · subst hc; rfl
  · obtain ⟨n, hn⟩ := Nat.exists_eq_add_one_of_ne_zero (BitVec.toNat_ne_iff_ne.mpr hc)
    have hlt : n < 255 := by have := c.isLt; omega
    rw [toNat_norm hc, normTable_eq, hn, List.getD_cons_succ]
    simp [hlt, ← hn]

/-- Settles O21: `NORM` is monotone because rounding is, and strictly so because `PACK` undoes it. -/
theorem normProperties : Obligations.NormProperties :=
  ⟨fun _ _ h => ⟨norm_strictMono h, val_lt_val (sign_norm _) (sign_norm _) (norm_strictMono h)⟩,
    isNormalised_iff, norm_zero, norm_255,
    fun _ h0 h255 => and_assoc.mp ⟨norm_inner_bounds h0 h255, val_norm_bounds h0 h255⟩,
    fun c => ⟨packProduct_norm c, val_rne32_code c⟩⟩

end Sys2Proof.Machine
end

section
/-! Stage 3, `POW` (spec/43_fp_power_unit.md rules R51 to R56): the operands of the general case, and the cases of the rule, which
are a lemma each about `powCases` with any power function in the general case. -/

namespace Sys2Proof.Machine

/-! ## The operands of the general case -/

theorem isInnerBase_iff (x : B32) : isInnerBase x = true ↔ ∃ c, c ≠ 0#8 ∧ c ≠ 255#8 ∧ norm c = x := by
  simp only [isInnerBase, Bool.and_eq_true, bne_iff_ne, isNormalised_iff, ← norm_zero, ← norm_255]
  constructor
  · rintro ⟨⟨⟨c, rfl⟩, h0⟩, h255⟩
    exact ⟨c, mt (congrArg norm) h0, mt (congrArg norm) h255, rfl⟩
  · rintro ⟨c, h0, h255, rfl⟩
    exact ⟨⟨⟨c, rfl⟩, norm_injective.ne h0⟩, norm_injective.ne h255⟩

theorem val_pZero : val pZero = 0 := by
  rw [val_of_sign rfl, show patternUnits pZero.toNat = 0 by decide]
  norm_num

theorem val_one : val one = 1 := by
  rw [val_of_sign rfl, show patternUnits one.toNat = 2 ^ 150 by decide]
  norm_num

theorem val_le_val {a b : B32} (ha : sign a = false) (hb : sign b = false) (h : a ≤ b) : val a ≤ val b := by
  rw [val_of_sign ha, val_of_sign hb]
  gcongr
  exact patternUnits_strictMono.monotone h

section
variable {x : B32} (hx : isInnerBase x = true)
include hx

theorem isNormalised_of_isInnerBase : isNormalised x = true := by
  obtain ⟨c, -, -, rfl⟩ := (isInnerBase_iff x).mp hx
  exact (isNormalised_iff _).mpr ⟨c, rfl⟩

theorem sign_of_isInnerBase : sign x = false := by
  obtain ⟨c, -, -, rfl⟩ := (isInnerBase_iff x).mp hx
  exact sign_norm c

theorem toNat_lt_one_of_isInnerBase : x.toNat < 0x3F800000 := by
  obtain ⟨c, h0, h255, rfl⟩ := (isInnerBase_iff x).mp hx
  exact lt_of_le_of_lt (norm_inner_bounds h0 h255).2 (by decide)

theorem val_pos_of_isInnerBase : (0 : ℝ) < val x := by
  obtain ⟨c, h0, h255, rfl⟩ := (isInnerBase_iff x).mp hx
  rw [Rat.cast_pos, ← val_pZero]
  have hlow : 0x3B808081#32 ≤ norm c := (norm_inner_bounds h0 h255).1
  exact val_lt_val rfl (sign_norm c) (lt_of_lt_of_le (show pZero.toNat < 0x3B808081 by decide) hlow)

theorem val_lt_one_of_isInnerBase : (val x : ℝ) < 1 := by
  have hlt : val x < val one := val_lt_val (sign_of_isInnerBase hx) rfl (toNat_lt_one_of_isInnerBase hx)
  rw [val_one] at hlt
  exact_mod_cast hlt

end

theorem isInnerExponent_iff (y : B32) : isInnerExponent y = true ↔ isFinite y = true ∧ isZero y = false := by
  simp [isInnerExponent]

theorem isNaN_iff (b : B32) : isNaN b = true ↔ 0x7F800000 < magnitude b := by
  have hexp := magnitude_div b
  have hfrac := magnitude_mod b
  have hlt : magnitude b < 2 ^ 31 := Nat.mod_lt _ (by norm_num)
  rw [isNaN, Bool.and_eq_true, beq_iff_eq, bne_iff_ne, ← BitVec.toNat_inj, ne_eq, ← BitVec.toNat_inj, ← hexp, ← hfrac,
    BitVec.toNat_ofNat, BitVec.toNat_ofNat]
  omega

theorem isZero_of_isNaN {b : B32} (h : isNaN b = true) : isZero b = false := by
  rw [isNaN_iff] at h
  rw [Bool.eq_false_iff, ne_eq, isZero_iff]
  omega

theorem val_nonneg_of_sign {y : B32} (h : sign y = false) : (0 : ℝ) ≤ val y := by
  rw [Rat.cast_nonneg, val_of_sign h]
  positivity

theorem val_nonpos_of_sign {y : B32} (h : sign y = true) : (val y : ℝ) ≤ 0 := by
  rw [Rat.cast_nonpos, val_eq_units, h, if_pos rfl, neg_one_mul, neg_div, neg_nonpos]
  positivity

/-! ## The cases of `POW`, with any power function in the general case -/

section
variable {fn : B32 → B32 → B32} {x y : B32}

theorem powCases_of_isZero (hy : isZero y = true) : powCases fn x y = one := by simp [powCases, hy]

theorem powCases_one : powCases fn one y = one := by simp [powCases]

theorem powCases_of_isNaN (hx : x ≠ one) (hy : isNaN y = true) : powCases fn x y = qNaN := by
  simp [powCases, hx, hy, isZero_of_isNaN hy]

theorem powCases_zero (h0 : isZero y = false) (hn : isNaN y = false) :
    powCases fn pZero y = if sign y then pInf else pZero := by
  have hne : pZero ≠ one := by decide
  cases hs : sign y <;> simp [powCases, h0, hn, hs, hne]

theorem powCases_pInf (h0 : x ≠ pZero) (h1 : x ≠ one) : powCases fn x pInf = pZero := by
  have hz : isZero pInf = false := by decide
  have hn : isNaN pInf = false := by decide
  simp [powCases, h0, h1, hz, hn]

theorem powCases_nInf (h0 : x ≠ pZero) (h1 : x ≠ one) : powCases fn x nInf = pInf := by
  have hz : isZero nInf = false := by decide
  have hn : isNaN nInf = false := by decide
  have hne : nInf ≠ pInf := by decide
  simp [powCases, h0, h1, hz, hn, hne]

theorem powCases_inner (hx : isInnerBase x = true) (hy : isInnerExponent y = true) : powCases fn x y = fn x y := by
  obtain ⟨hfin, hz⟩ := (isInnerExponent_iff y).mp hy
  simp only [isInnerBase, Bool.and_eq_true, bne_iff_ne] at hx
  obtain ⟨⟨-, h0⟩, h1⟩ := hx
  have hpos : y ≠ pInf := by rintro rfl; revert hfin; decide
  have hneg : y ≠ nInf := by rintro rfl; revert hfin; decide
  simp [powCases, h0, h1, hz, isNaN_of_isFinite hfin, hpos, hneg]

end

theorem pow_of_isNormalised {x : B32} (hx : isNormalised x = true) (y : B32) : pow x y = powCases powFn x y := by
  rw [pow, if_pos hx]

/-- Settles O22, case by case of `powCases`. -/
theorem powSpecialCases : Obligations.PowSpecialCases := by
  intro x y hx
  rw [pow_of_isNormalised hx]
  refine ⟨powCases_of_isZero, ?base_one, fun hy h1 => powCases_of_isNaN h1 hy, ?base_zero, ?base_zero_neg, ?exp_pInf,
    ?exp_nInf⟩
  case base_one => rintro rfl; exact powCases_one
  case base_zero => rintro rfl h0 hn hs; simp [powCases_zero h0 hn, hs]
  case base_zero_neg => rintro rfl h0 hn hs; simp [powCases_zero h0 hn, hs]
  case exp_pInf => rintro h0 h1 rfl; exact powCases_pInf h0 h1
  case exp_nInf => rintro h0 h1 rfl; exact powCases_nInf h0 h1

end Sys2Proof.Machine
end

section
/-! Stage 3, the general case (spec/43_fp_power_unit.md rules R57 and R58). Raised to the denominator of the exponent, the real
power is a fraction of natural numbers: so the integers that the unit compares tell how the power itself compares with the half
way points. What is left of PW1 to PW5 is that rounding and the real power are monotone. -/

namespace Sys2Proof.Machine

/-! ## The integers that the unit compares -/

/-- A positive real whose `N`-th power is a fraction of natural numbers is compared with multiples of 2^-150 by comparing natural
numbers. -/
theorem compares_of_pow_eq {q : ℝ} (hq : 0 < q) {N num den : Nat} (hN : N ≠ 0) (hden : 0 < den)
    (h : q ^ N = (num : ℝ) / den) :
    Compares (fun a => compare (num * 2 ^ (150 * N)) (a.toNat ^ N * den)) q := by
  have hd : (0 : ℝ) < den := by exact_mod_cast hden
  have hQ : 0 ≤ q * 2 ^ 150 := by positivity
  have hpow : (q * 2 ^ 150) ^ N = num * 2 ^ (150 * N) / den := by rw [mul_pow, h, ← pow_mul]; ring
  intro a
  have ha : (0 : ℝ) ≤ a.toNat := Nat.cast_nonneg _
  rw [compare_lt_iff_lt, compare_gt_iff_gt, ← pow_lt_pow_iff_left₀ hQ ha hN, ← pow_lt_pow_iff_left₀ ha hQ hN, hpow,
    div_lt_iff₀ hd, lt_div_iff₀ hd]
  norm_cast

/-- Raising to the denominator of the exponent. -/
theorem rpow_div_two_pow_pow {b : ℝ} (hb : 0 ≤ b) (n k : Nat) : (b ^ ((n : ℝ) / 2 ^ k)) ^ 2 ^ k = b ^ n := by
  rw [← Real.rpow_mul_natCast hb, Nat.cast_pow, Nat.cast_ofNat, div_mul_cancel₀ _ (by positivity), Real.rpow_natCast]

theorem compares_powerCompareExact_pos {s : Nat} (hs : 0 < s) (d n k : Nat) :
    Compares (powerCompareExact false s d n k) (((s : ℝ) / 2 ^ d) ^ ((n : ℝ) / 2 ^ k)) := by
  have hb : (0 : ℝ) < s / 2 ^ d := by positivity
  refine compares_of_pow_eq (N := 2 ^ k) (num := s ^ n) (den := 2 ^ (d * n)) (Real.rpow_pos_of_pos hb _) (by positivity)
    (by positivity) ?_
  rw [rpow_div_two_pow_pow hb.le, div_pow, ← pow_mul]
  norm_cast

theorem compares_powerCompareExact_neg {s : Nat} (hs : 0 < s) (d n k : Nat) :
    Compares (powerCompareExact true s d n k) (((s : ℝ) / 2 ^ d) ^ (-((n : ℝ) / 2 ^ k))) := by
  have hb : (0 : ℝ) < s / 2 ^ d := by positivity
  have hcmp : powerCompareExact true s d n k =
      fun a => compare (2 ^ (d * n) * 2 ^ (150 * 2 ^ k)) (a.toNat ^ 2 ^ k * s ^ n) := by
    funext a
    simp [powerCompareExact, pow_add, mul_comm]
  rw [hcmp]
  refine compares_of_pow_eq (N := 2 ^ k) (Real.rpow_pos_of_pos hb _) (by positivity) (by positivity) ?_
  rw [Real.rpow_neg hb.le, inv_pow, rpow_div_two_pow_pow hb.le, div_pow, inv_div, ← pow_mul]
  norm_cast

/-- A count of units of 2^-150 as a fraction with a smaller denominator. -/
theorem units_div_eq {u m k : Nat} (hk : k ≤ 150) (h : m * 2 ^ (150 - k) = u) : (u : ℝ) / 2 ^ 150 = m / 2 ^ k := by
  have hsplit : (2 : ℝ) ^ 150 = 2 ^ k * 2 ^ (150 - k) := by rw [← pow_add, Nat.add_sub_cancel' hk]
  rw [← h, hsplit, Nat.cast_mul, Nat.cast_pow, Nat.cast_ofNat, mul_div_mul_right _ _ (by positivity)]

/-- The base as the fraction that the unit takes it for. -/
theorem val_base_eq {x : B32} (hx : isInnerBase x = true) :
    (val x : ℝ) = signif (magnitude x) / 2 ^ (150 - scaleOf (magnitude x)) := by
  have hsign := sign_of_isInnerBase hx
  have hscale : scaleOf (magnitude x) ≤ 150 := by
    have hlt := toNat_lt_one_of_isInnerBase hx
    rw [magnitude_of_sign hsign, scaleOf]
    split <;> omega
  rw [← units_div_eq (u := units x) (Nat.sub_le _ _) (by rw [Nat.sub_sub_self hscale, units, patternUnits]),
    val_of_sign hsign, units_of_sign hsign]
  push_cast
  rfl

/-- The magnitude of the exponent as the fraction that the unit reduces it to. -/
theorem units_exponent_eq (y : B32) :
    (units y : ℝ) / 2 ^ 150 = (cancelTwos (units y) 150).1 / 2 ^ (cancelTwos (units y) 150).2 :=
  have ⟨hnum, hle⟩ := cancelTwos_eq 150 (units y)
  units_div_eq hle hnum

/-! ## The general case -/

/-- The comparison by which the general case rounds. -/
def powerOrder (x y : B32) : Scaled → Ordering :=
  powerCompareExact (sign y) (signif (magnitude x)) (150 - scaleOf (magnitude x))
    (cancelTwos (units y) 150).1 (cancelTwos (units y) 150).2

theorem toNat_powFn (x y : B32) : (powFn x y).toNat = roundPattern (powerOrder x y) := by
  have hle := roundPattern_le (powerOrder x y)
  rw [powFn_eq, ← powerOrder, BitVec.toNat_ofNat]
  omega

theorem sign_powFn (x y : B32) : sign (powFn x y) = false := by
  have hle := roundPattern_le (powerOrder x y)
  rw [sign_eq, toNat_powFn, decide_eq_false_iff_not]
  omega

theorem isNaN_powFn (x y : B32) : isNaN (powFn x y) = false := by
  rw [Bool.eq_false_iff, ne_eq, isNaN_iff, magnitude_of_sign (sign_powFn x y), toNat_powFn, not_lt]
  exact roundPattern_le _

theorem powFn_ne_nZero (x y : B32) : powFn x y ≠ nZero := fun h => by
  have hs := sign_powFn x y
  rw [h] at hs
  exact absurd hs (by decide)

/-- The unit compares the exact real power. -/
theorem compares_powerOrder {x : B32} (hx : isInnerBase x = true) (y : B32) :
    Compares (powerOrder x y) ((val x : ℝ) ^ (val y : ℝ)) := by
  have hsig : 0 < signif (magnitude x) := by
    refine Nat.pos_of_ne_zero fun h0 => (val_pos_of_isInnerBase hx).ne' ?_
    rw [val_base_eq hx, h0, Nat.cast_zero, zero_div]
  rw [val_base_eq hx, val_eq_units, powerOrder]
  cases sign y with
  | false =>
    convert compares_powerCompareExact_pos hsig _ _ _ using 2
    rw [← units_exponent_eq]
    push_cast
    simp
  | true =>
    convert compares_powerCompareExact_neg hsig _ _ _ using 2
    rw [← units_exponent_eq]
    push_cast
    simp [neg_div]

/-- The number 1, as the quotient that PW3 and PW4 compare a power with. -/
theorem compares_one : Compares (ratioCompare 1 1) 1 := by simpa using compares_ratioCompare 1 one_pos

theorem roundPattern_one : roundPattern (ratioCompare 1 1) = one.toNat := by
  rw [← toNat_rne32 1 one_pos]
  exact toNat_rne32_of_exact 1 one_pos (by decide) (by decide)

section
variable {x : B32} (hx : isInnerBase x = true)
include hx

/-- PW6. -/
theorem isRNE32_powFn (y : B32) : IsRNE32 ((val x : ℝ) ^ (val y : ℝ)) (powFn x y) := by
  rw [powFn_eq]
  exact roundPattern_isRNE32 _ _ (Real.rpow_pos_of_pos (val_pos_of_isInnerBase hx) _) (compares_powerOrder hx y)

theorem powFn_le_powFn {x' y y' : B32} (hx' : isInnerBase x' = true)
    (h : (val x : ℝ) ^ (val y : ℝ) ≤ (val x' : ℝ) ^ (val y' : ℝ)) : powFn x y ≤ powFn x' y' := by
  rw [BitVec.le_def, toNat_powFn, toNat_powFn]
  exact roundPattern_mono (compares_powerOrder hx y) (compares_powerOrder hx' y') h

/-- PW1: the first power of the base is a binary32 value. -/
theorem powFn_one : powFn x one = x := by
  have hsign := sign_of_isInnerBase hx
  apply BitVec.eq_of_toNat_eq
  rw [toNat_powFn]
  refine roundPattern_exact (compares_powerOrder hx one) ((toNat_lt_one_of_isInnerBase hx).trans (by norm_num)) ?_
  rw [val_one, Rat.cast_one, Real.rpow_one, val_of_sign hsign]
  push_cast
  exact div_mul_cancel₀ _ (by positivity)

/-- PW3: a power of at most 1 rounds to at most 1.0. -/
theorem powFn_le_one {y : B32} (hy : sign y = false) : powFn x y ≤ one := by
  rw [BitVec.le_def, toNat_powFn, ← roundPattern_one]
  exact roundPattern_mono (compares_powerOrder hx y) compares_one
    (Real.rpow_le_one (val_pos_of_isInnerBase hx).le (val_lt_one_of_isInnerBase hx).le (val_nonneg_of_sign hy))

/-- PW4: a power of at least 1 rounds to at least 1.0. -/
theorem one_le_powFn {y : B32} (hy : sign y = true) : one ≤ powFn x y := by
  rw [BitVec.le_def, toNat_powFn, ← roundPattern_one]
  exact roundPattern_mono compares_one (compares_powerOrder hx y)
    (Real.one_le_rpow_of_pos_of_le_one_of_nonpos (val_pos_of_isInnerBase hx) (val_lt_one_of_isInnerBase hx).le
      (val_nonpos_of_sign hy))

/-- PW5, for a positive exponent. -/
theorem powFn_mono {x' y : B32} (hx' : isInnerBase x' = true) (hy : sign y = false) (h : x ≤ x') :
    powFn x y ≤ powFn x' y := by
  have hxx : (val x : ℝ) ≤ val x' := by
    exact_mod_cast val_le_val (sign_of_isInnerBase hx) (sign_of_isInnerBase hx') h
  exact powFn_le_powFn hx hx' (Real.rpow_le_rpow (val_pos_of_isInnerBase hx).le hxx (val_nonneg_of_sign hy))

/-- PW5, for a negative exponent. -/
theorem powFn_anti {x' y : B32} (hx' : isInnerBase x' = true) (hy : sign y = true) (h : x ≤ x') :
    powFn x' y ≤ powFn x y := by
  have hxx : (val x : ℝ) ≤ val x' := by
    exact_mod_cast val_le_val (sign_of_isInnerBase hx) (sign_of_isInnerBase hx') h
  exact powFn_le_powFn hx' hx (Real.rpow_le_rpow_of_nonpos (val_pos_of_isInnerBase hx) hxx (val_nonpos_of_sign hy))

end

/-- PW1 to PW5 of the reference. -/
theorem powerProperties_powFn : PowerProperties powFn where
  pw1 _ hx := powFn_one hx
  pw2 x y _ _ := ⟨isNaN_powFn x y, sign_powFn x y, powFn_ne_nZero x y⟩
  pw3 _ _ hx _ hs := powFn_le_one hx hs
  pw4 _ _ hx _ hs := one_le_powFn hx hs
  pw5 _ _ y hx hx' _ h := by
    cases hs : sign y with
    | false => exact powFn_mono hx hx' hs h
    | true => exact powFn_anti hx hx' hs h

theorem pow_eq_powFn {x y : B32} (hx : isInnerBase x = true) (hy : isInnerExponent y = true) : pow x y = powFn x y := by
  rw [pow_of_isNormalised (isNormalised_of_isInnerBase hx), powCases_inner hx hy]

/-- Settles O23: the general case of `POW` is the reference power, which rounds the real power. -/
theorem powIsTheCorrectlyRoundedPower : Obligations.PowIsTheCorrectlyRoundedPower := fun _ y hx hy =>
  (pow_eq_powFn hx hy).symm ▸ isRNE32_powFn hx y

/-- Settles O24: PW1 to PW5 from the monotonicity of rounding, PW6 as in O23. -/
theorem powFnHasThePowerProperties : Obligations.PowFnHasThePowerProperties :=
  ⟨powerProperties_powFn, fun _ y hx hy => ⟨pow_eq_powFn hx hy, isRNE32_powFn hx y⟩⟩

end Sys2Proof.Machine
end

section
/-! Stage 4, `CLAMP` (spec/44_clamp_unit.md rules R60 and R61). Every result is a pattern up to 1.0, and `CLAMP` keeps exactly those
patterns; on finite patterns it cuts the value to the range from 0 to 1. -/

namespace Sys2Proof.Machine

/-! ## Patterns up to 1.0 -/

section
variable {v : B32} (h : v ≤ one)
include h

theorem sign_of_le_one : sign v = false := by
  have hv : v.toNat ≤ 0x3F800000 := h
  rw [sign_eq, decide_eq_false_iff_not]
  omega

theorem isFinite_of_le_one : isFinite v = true := by
  rw [isFinite_iff, magnitude_of_sign (sign_of_le_one h)]
  exact lt_of_le_of_lt h (by decide)

theorem isNaN_of_le_one : isNaN v = false := isNaN_of_isFinite (isFinite_of_le_one h)

theorem val_mem_unit_of_le_one : 0 ≤ val v ∧ val v ≤ 1 := by
  have hv : sign v = false := sign_of_le_one h
  exact ⟨by exact_mod_cast val_nonneg_of_sign hv, val_one ▸ val_le_val hv rfl h⟩

end

/-! ## The cases of `CLAMP` -/

section
variable {v : B32}

theorem eq_pZero_of_isZero (hs : sign v = false) (hz : isZero v = true) : v = pZero :=
  BitVec.eq_of_toNat_eq ((magnitude_of_sign hs).symm.trans (isZero_iff.mp hz))

theorem isZero_of_one_le (hs : sign v = false) (h : one ≤ v) : isZero v = false := by
  rw [Bool.eq_false_iff]
  intro hz
  rw [eq_pZero_of_isZero hs hz] at h
  exact absurd h (by decide)

theorem clamp_of_isNaN (h : isNaN v = true) : clamp v = pZero := by simp [clamp, h]

theorem clamp_of_sign (h : sign v = true) : clamp v = pZero := by simp [clamp, h]

theorem clamp_of_isZero (h : isZero v = true) : clamp v = pZero := by simp [clamp, h]

theorem clamp_of_one_le (hn : isNaN v = false) (hs : sign v = false) (h : one ≤ v) : clamp v = one := by
  simp [clamp, hn, hs, isZero_of_one_le hs h, h]

/-- No case of `CLAMP` changes a pattern up to 1.0: the one zero among them is +0, the result for a zero. -/
theorem clamp_of_le_one (h : v ≤ one) : clamp v = v := by
  have hs : sign v = false := sign_of_le_one h
  cases hz : isZero v with
  | true => rw [clamp_of_isZero hz, eq_pZero_of_isZero hs hz]
  | false =>
    by_cases h1 : one ≤ v
    · rw [clamp_of_one_le (isNaN_of_le_one h) hs h1, BitVec.le_antisymm h h1]
    · simp [clamp, isNaN_of_le_one h, hs, hz, h1]

end

/-- Settles O27, one lemma per case. -/
theorem clampCases : Obligations.ClampCases := fun _ =>
  ⟨clamp_of_isNaN, fun _ hs => clamp_of_sign hs, fun _ _ hz => clamp_of_isZero hz, fun hn hs _ h => clamp_of_one_le hn hs h,
    fun _ _ _ h => clamp_of_le_one (BitVec.le_of_lt h)⟩

/-! ## The range and the value of the result -/

theorem clamp_le_one (v : B32) : clamp v ≤ one := by
  cases hn : isNaN v with
  | true => rw [clamp_of_isNaN hn]; decide
  | false =>
    cases hs : sign v with
    | true => rw [clamp_of_sign hs]; decide
    | false =>
      obtain h | h := BitVec.le_total v one
      · rwa [clamp_of_le_one h]
      · exact (clamp_of_one_le hn hs h).symm ▸ BitVec.le_refl one

theorem clamp_eq_self_iff (v : B32) : clamp v = v ↔ v ≤ one :=
  ⟨fun h => h ▸ clamp_le_one v, clamp_of_le_one⟩

/-- By value, `CLAMP` cuts a finite pattern to the range from 0 to 1. -/
theorem val_clamp {v : B32} (hf : isFinite v = true) : val (clamp v) = max 0 (min (val v) 1) := by
  cases hs : sign v with
  | true =>
    have hv : val v ≤ 0 := by exact_mod_cast val_nonpos_of_sign hs
    rw [clamp_of_sign hs, val_pZero, max_eq_left ((min_le_left _ _).trans hv)]
  | false =>
    obtain h | h := BitVec.le_total v one
    · obtain ⟨h0, h1⟩ := val_mem_unit_of_le_one h
      rw [clamp_of_le_one h, min_eq_left h1, max_eq_right h0]
    · have hv : 1 ≤ val v := val_one ▸ val_le_val rfl hs h
      rw [clamp_of_one_le (isNaN_of_isFinite hf) hs h, val_one, min_eq_right hv, max_eq_right zero_le_one]

theorem val_clamp_mono {v w : B32} (hv : isFinite v = true) (hw : isFinite w = true) (h : val v ≤ val w) :
    val (clamp v) ≤ val (clamp w) := by
  rw [val_clamp hv, val_clamp hw]
  gcongr

theorem le_one_of_val_le_one {v : B32} (hs : sign v = false) (h : val v ≤ 1) : v ≤ one := by
  by_contra hlt
  have hv : val one < val v := val_lt_val rfl hs (BitVec.not_le.mp hlt)
  rw [val_one] at hv
  exact absurd h hv.not_ge

/-! ## What `POW` brings to `CLAMP` -/

theorem eq_inf_of_not_finite {y : B32} (hf : isFinite y = false) (hn : isNaN y = false) : y = pInf ∨ y = nInf := by
  have hm : magnitude y = 0x7F800000 := by
    rw [Bool.eq_false_iff, ne_eq, isFinite_iff] at hf
    rw [Bool.eq_false_iff, ne_eq, isNaN_iff] at hn
    omega
  rw [← BitVec.toNat_inj, ← BitVec.toNat_inj]
  simp only [magnitude, pInf, nInf, BitVec.toNat_ofNat] at hm ⊢
  omega

/-- The results of `POW` for a normalised base: the canonical NaN, a pattern up to 1.0, or, for a negative exponent only, a
number from 1.0 on (spec/43_fp_power_unit.md rules R52 to R58). -/
theorem pow_range {x : B32} (hx : isNormalised x = true) (y : B32) :
    pow x y = qNaN ∨ pow x y ≤ one ∨
      (sign y = true ∧ isNaN (pow x y) = false ∧ sign (pow x y) = false ∧ one ≤ pow x y) := by
  rw [pow_of_isNormalised hx]
  by_cases h1 : x = one
  · rw [h1, powCases_one]
    exact .inr (.inl (BitVec.le_refl one))
  cases hz : isZero y with
  | true => exact .inr (.inl (powCases_of_isZero hz ▸ BitVec.le_refl one))
  | false =>
  cases hn : isNaN y with
  | true => exact .inl (powCases_of_isNaN h1 hn)
  | false =>
  by_cases h0 : x = pZero
  · rw [h0, powCases_zero hz hn]
    cases hs : sign y <;> decide
  cases hf : isFinite y with
  | false =>
    obtain rfl | rfl := eq_inf_of_not_finite hf hn
    · rw [powCases_pInf h0 h1]; decide
    · rw [powCases_nInf h0 h1]; decide
  | true =>
    have hb : isInnerBase x = true := by simp [isInnerBase, hx, h0, h1]
    rw [powCases_inner hb ((isInnerExponent_iff y).mpr ⟨hf, hz⟩)]
    cases hs : sign y with
    | false => exact .inr (.inl (powFn_le_one hb hs))
    | true => exact .inr (.inr ⟨rfl, isNaN_powFn x y, sign_powFn x y, one_le_powFn hb hs⟩)

/-- Settles O28: K1 to K4 from the range and the value of the result, K5 from the range of `POW`. -/
theorem clampProperties : Obligations.ClampProperties := by
  refine ⟨?k1, fun v => clamp_of_le_one (clamp_le_one v), fun _ _ => val_clamp_mono, ?k3_inf,
    fun _ _ hs _ h => clamp_of_le_one (le_one_of_val_le_one hs h), ?k5⟩
  case k1 =>
    intro v
    have h : clamp v ≤ one := clamp_le_one v
    exact ⟨h, sign_of_le_one h, isNaN_of_le_one h, fun he => absurd (he ▸ h) (by decide), val_mem_unit_of_le_one h⟩
  case k3_inf => exact ⟨clamp_of_sign (by decide), clamp_of_one_le (by decide) (by decide) (by decide)⟩
  case k5 =>
    intro x y hx hne
    rw [ne_eq, clamp_eq_self_iff, BitVec.not_le] at hne
    obtain hq | hle | ⟨hs, hn, hp, h1⟩ := pow_range hx y
    · exact .inl ⟨hq, by rw [hq, clamp_of_isNaN (by decide)]⟩
    · exact absurd hle (BitVec.not_le.mpr hne)
    · exact .inr ⟨hs, hn, hne, clamp_of_one_le hn hp h1⟩

end Sys2Proof.Machine
end

section
/-! The two roundings of `PACK` beyond patterns of sign 0 (spec/00_scope.md rule R10): `RNE32` of a rational of either sign, as rounding
commutes with negation, and `RINT`. -/

namespace Sys2Proof.Machine

/-! ## The pattern of the opposite sign -/

/-- The pattern with its sign bit inverted: adding the sign bit carries into no other bit. -/
def negate (b : B32) : B32 := nZero + b

section
variable (b : B32)

theorem toNat_negate : (negate b).toNat = (2 ^ 31 + b.toNat) % 2 ^ 32 := BitVec.toNat_add nZero b

@[simp] theorem negate_negate : negate (negate b) = b := by
  have hb := b.isLt
  apply BitVec.eq_of_toNat_eq
  rw [toNat_negate, toNat_negate]
  omega

@[simp] theorem sign_negate : sign (negate b) = !sign b := by
  have hb := b.isLt
  rw [sign_eq, sign_eq, toNat_negate, ← decide_not, decide_eq_decide]
  omega

@[simp] theorem magnitude_negate : magnitude (negate b) = magnitude b := by
  rw [magnitude, magnitude, toNat_negate]
  omega

@[simp] theorem isFinite_negate : isFinite (negate b) = isFinite b := by
  rw [Bool.eq_iff_iff, isFinite_iff, isFinite_iff, magnitude_negate]

@[simp] theorem fraction_negate : fraction (negate b) = fraction b := by
  apply BitVec.eq_of_toNat_eq
  rw [← magnitude_mod, ← magnitude_mod, magnitude_negate]

@[simp] theorem val_negate : val (negate b) = -val b := by
  rw [val_eq_units, val_eq_units, sign_negate, units, units, magnitude_negate]
  cases sign b <;> simp [neg_div]

end

/-! ## `RNE32` of a rational of either sign -/

/-- Rounding commutes with negation: the candidates for the nearest value come in pairs of opposite sign. -/
theorem isRNE32_negate {q : ℝ} {b : B32} (h : IsRNE32 q b) (hq : q ≠ 0) : IsRNE32 (-q) (negate b) := by
  obtain ⟨-, hover, hunder, hfin⟩ := h
  refine ⟨fun h0 => absurd (neg_eq_zero.mp h0) hq, fun hle => ?_, fun hle => ?_, fun _ hlt => ?_⟩
  · rw [hunder (by linarith)]; rfl
  · rw [hover (by linarith)]; rfl
  · obtain ⟨hf, hs, hnear⟩ := hfin hq (abs_neg q ▸ hlt)
    have hdist : ∀ x : ℝ, |-x - -q| = |x - q| := fun x => by rw [neg_sub_neg, abs_sub_comm]
    refine ⟨by rwa [isFinite_negate], ?_, fun c hc => ?_⟩
    · rw [sign_negate, Bool.not_eq_true', ← Bool.not_eq_true, hs, not_lt, neg_lt_zero]
      exact hq.symm.le_iff_lt
    · have hopp := hnear (negate c) (by rwa [isFinite_negate])
      rw [val_negate, Rat.cast_neg, ← hdist, ← hdist (-_), neg_neg] at hopp
      rw [val_negate, Rat.cast_neg, fraction_negate]
      exact ⟨hopp.1, fun he hne => hopp.2 he fun heq => hne (neg_eq_iff_eq_neg.mp heq)⟩

theorem rne32_true {num : Nat} (h : num ≠ 0) (den : Nat) : rne32 true num den = negate (rne32 false num den) := by
  rw [rne32, rne32, if_neg h, if_neg h, if_pos rfl, if_neg Bool.false_ne_true, BitVec.ofNat_add, Nat.zero_add]
  rfl

theorem isRNE32_rne32_true (num : Nat) {den : Nat} (hden : 0 < den) :
    IsRNE32 (-((num : ℝ) / den)) (rne32 true num den) := by
  have hpos := isRNE32_rne32 num hden
  by_cases h : num = 0
  · subst h
    rw [Nat.cast_zero, zero_div] at hpos ⊢
    rw [neg_zero]
    exact hpos
  · rw [rne32_true h]
    exact isRNE32_negate hpos (by positivity)

/-! ## `RINT` -/

theorem rint_cases (num den : Nat) :
    2 * (num % den) < den ∧ rint num den = num / den ∨ den < 2 * (num % den) ∧ rint num den = num / den + 1 ∨
      2 * (num % den) = den ∧ rint num den = num / den + num / den % 2 := by
  unfold rint
  split
  case h_1 h => exact .inl ⟨Nat.compare_eq_lt.mp h, rfl⟩
  case h_2 h => exact .inr (.inl ⟨Nat.compare_eq_gt.mp h, rfl⟩)
  case h_3 h => exact .inr (.inr ⟨Nat.compare_eq_eq.mp h, rfl⟩)

theorem rint_le_of_lt {num den n : Nat} (h : num < n * den) : rint num den ≤ n := by
  have hq : num / den < n := Nat.div_lt_of_lt_mul (Nat.mul_comm n den ▸ h)
  obtain ⟨-, hr⟩ | ⟨-, hr⟩ | ⟨-, hr⟩ := rint_cases num den <;> omega

/-- Away from a tie `RINT` is nearer than one half; at a tie the last bit of the integer part is added, which makes it even. -/
theorem rint_nearest (num : Nat) {den : Nat} (hden : 0 < den) :
    |(rint num den : ℚ) - num / den| < 1 / 2 ∨ |(rint num den : ℚ) - num / den| = 1 / 2 ∧ rint num den % 2 = 0 := by
  have hpos : (0 : ℚ) < den := by exact_mod_cast hden
  have hfrac : (num : ℚ) / den = (num / den : ℕ) + (num % den : ℕ) / den := by
    rw [div_eq_iff hpos.ne', add_mul, div_mul_cancel₀ _ hpos.ne']
    exact_mod_cast (Nat.div_add_mod' num den).symm
  have hsub : ∀ d : ℕ, ((num / den + d : ℕ) : ℚ) - num / den = d - (num % den : ℕ) / den := fun d => by
    rw [hfrac, Nat.cast_add, add_sub_add_left_eq_sub]
  obtain ⟨h, hr⟩ | ⟨h, hr⟩ | ⟨h, hr⟩ := rint_cases num den
  · have hhalf : ((num % den : ℕ) : ℚ) / den < 1 / 2 := by
      rw [div_lt_div_iff₀ hpos two_pos]; norm_cast; omega
    have hnonneg : (0 : ℚ) ≤ (num % den : ℕ) / den := by positivity
    left
    rw [hr, ← Nat.add_zero (num / den), hsub, Nat.cast_zero, abs_lt]
    constructor <;> linarith
  · have hhalf : 1 / 2 < ((num % den : ℕ) : ℚ) / den := by
      rw [div_lt_div_iff₀ two_pos hpos]; norm_cast; omega
    have hlt : ((num % den : ℕ) : ℚ) / den < 1 := by
      rw [div_lt_one hpos]; exact_mod_cast Nat.mod_lt num hden
    left
    rw [hr, hsub, Nat.cast_one, abs_lt]
    constructor <;> linarith
  · have hhalf : ((num % den : ℕ) : ℚ) / den = 1 / 2 := by
      rw [div_eq_div_iff hpos.ne' two_ne_zero]; norm_cast; omega
    right
    rw [hr, hsub, hhalf]
    refine ⟨?_, by omega⟩
    obtain hd | hd := Nat.mod_two_eq_zero_or_one (num / den) <;> rw [hd] <;> norm_num

end Sys2Proof.Machine
end

section
/-! Stage 5, `PACK` and `REPACK` (spec/45_rgba_repack.md rules R62 to R64): one lemma per case of `PACK`, the lanes of `REPACK`, and
the codes that come back unchanged. -/

namespace Sys2Proof.Machine

/-! ## The product by 255 -/

theorem packProduct_of_isInf {v : B32} (h : isInf v = true) : packProduct v = v := by rw [packProduct, if_pos h]

theorem isRNE32_packProduct {v : B32} (h : isFinite v = true) : IsRNE32 ((val v : ℝ) * 255) (packProduct v) := by
  have hden : 0 < 2 ^ 150 := Nat.two_pow_pos 150
  rw [packProduct, isInf_of_isFinite h, if_neg Bool.false_ne_true]
  cases hs : sign v with
  | false =>
    have hval : (val v : ℝ) * 255 = (units v * 255 : ℕ) / (2 ^ 150 : ℕ) := by
      rw [val_eq_units, hs, if_neg Bool.false_ne_true]
      push_cast
      ring
    exact hval ▸ isRNE32_rne32 (units v * 255) hden
  | true =>
    have hval : (val v : ℝ) * 255 = -((units v * 255 : ℕ) / (2 ^ 150 : ℕ)) := by
      rw [val_eq_units, hs, if_pos rfl]
      push_cast
      ring
    exact hval ▸ isRNE32_rne32_true (units v * 255) hden

/-! ## The cases of `PACK` -/

section
variable {v : B32}

theorem pack_of_isNaN (h : isNaN v = true) : pack v = 0#8 := by simp [pack, h]

theorem pack_of_sign_or_isZero (h : sign (packProduct v) = true ∨ isZero (packProduct v) = true) : pack v = 0#8 := by
  simp [pack, h]

/-- Saturation; a product from 255.0 on is no zero. -/
theorem pack_of_f255_le (hn : isNaN v = false) (hs : sign (packProduct v) = false) (h : f255 ≤ packProduct v) :
    pack v = 255#8 := by
  have hone : one ≤ packProduct v := BitVec.le_trans (by decide) h
  simp [pack, hn, hs, isZero_of_one_le hs hone, h]

/-- The general case: below 255.0 the nearest integer is at most 255, so the 8 bits hold it. -/
theorem toNat_pack_of_lt_f255 (hn : isNaN v = false) (hs : sign (packProduct v) = false)
    (hz : isZero (packProduct v) = false) (h : packProduct v < f255) :
    (pack v).toNat = rint (units (packProduct v)) (2 ^ 150) := by
  have hunits : units (packProduct v) < 255 * 2 ^ 150 := by
    rw [units_of_sign hs, show 255 * 2 ^ 150 = patternUnits f255.toNat by decide]
    exact patternUnits_strictMono h
  have hle := rint_le_of_lt hunits
  have hpack : pack v = BitVec.ofNat 8 (rint (units (packProduct v)) (2 ^ 150)) := by
    simp [pack, hn, hs, hz, BitVec.not_le.mpr h]
  rw [hpack, BitVec.toNat_ofNat, Nat.mod_eq_of_lt (by omega)]

theorem pack_nearest (hn : isNaN v = false) (hs : sign (packProduct v) = false)
    (hz : isZero (packProduct v) = false) (h : packProduct v < f255) :
    |((pack v).toNat : ℚ) - val (packProduct v)| ≤ 1 / 2 ∧
      (|((pack v).toNat : ℚ) - val (packProduct v)| = 1 / 2 → (pack v).toNat % 2 = 0) := by
  have hval : val (packProduct v) = (units (packProduct v) : ℚ) / (2 ^ 150 : ℕ) := by
    rw [val_of_sign hs, units_of_sign hs, Nat.cast_pow, Nat.cast_ofNat]
  rw [toNat_pack_of_lt_f255 hn hs hz h, hval]
  obtain hlt | ⟨heq, heven⟩ := rint_nearest (units (packProduct v)) (Nat.two_pow_pos 150)
  · exact ⟨hlt.le, fun he => absurd he hlt.ne⟩
  · exact ⟨heq.le, fun _ => heven⟩

end

/-- Settles O29: the first rounding is `RNE32` of the product, and then one lemma per case. -/
theorem packIsTwoRoundings : Obligations.PackIsTwoRoundings :=
  ⟨fun _ => isRNE32_packProduct, fun _ => packProduct_of_isInf, fun _ =>
    ⟨pack_of_isNaN, fun _ => pack_of_sign_or_isZero, pack_of_f255_le, pack_nearest⟩⟩

/-! ## The lanes of `REPACK` -/

/-- Settles O31: `REPACK` puts the four codes together as a packed pixel, and a lane of that is the code put there. -/
theorem repackKeepsLanesApart : Obligations.RepackKeepsLanesApart := fun _ _ _ _ =>
  ⟨redOf_packPixel .., greenOf_packPixel .., blueOf_packPixel .., alphaOf_packPixel ..⟩

/-! ## The codes that come back -/

/-- A normalised code to the power 1.0 is itself: a special case of the rule for the codes 0 and 255, PW1 for the others. -/
theorem pow_norm_one (c : Code) : pow (norm c) one = norm c := by
  rw [pow_of_isNormalised ((isNormalised_iff _).mpr ⟨c, rfl⟩)]
  by_cases h0 : c = 0#8
  · subst h0; exact powCases_zero (by decide) (by decide)
  by_cases h255 : c = 255#8
  · subst h255; rw [norm_255]; exact powCases_one
  have hx : isInnerBase (norm c) = true := (isInnerBase_iff _).mpr ⟨c, h0, h255, rfl⟩
  rw [powCases_inner hx (by decide), powFn_one hx]

/-- The power and `CLAMP` leave the normalised code alone, and `PACK` gives the code back. -/
theorem chan_one (c : Code) : chan c one = c := by
  rw [chan, pow_norm_one, clamp_of_le_one (norm_le_one c), pack_norm]

/-- Settles O32: the alpha lane is `PACK` after `NORM`, and so is a colour lane at gamma 1.0. -/
theorem alphaRoundTripAndIdentityLane : Obligations.AlphaRoundTripAndIdentityLane :=
  ⟨fun c => ⟨pack_norm c, pack_norm c, packProduct_norm c, packProduct_norm c ▸ val_rne32_code c⟩, chan_one⟩

end Sys2Proof.Machine
end

section
/-! The outcomes of a step (spec/60_exceptions.md rule R66): the next state, and no other. -/

namespace Sys2Proof.Machine

/-- Settles O7: the next state of an operation is the edge of `RESET` or the common clock edge, and a step is the operation of the
bundle presented. -/
theorem everyStepAnswersANextState : Obligations.EveryStepAnswersANextState :=
  ⟨fun s => ⟨_, step_eq s⟩, fun i s => ⟨_, exec_eq i s⟩⟩

end Sys2Proof.Machine
end

section
/-! The decoder and the encoder as functions of the control bits and the two fields of a bundle (spec/30_encoding.md rules R27, R30), and
the rows of spec/opcode_table.json as masks of the control bits. -/

namespace Sys2Proof

open Sys2Proof.Machine

/-! ## The control bits -/

/-- `IB67[66:64] = {rst, cfg_we, in_valid}`. -/
def controlBits (b : Bundle) : BitVec 3 := b.extractLsb' 64 3

section
variable (b : Bundle)

theorem controlBits_bit_2 : (controlBits b).getLsbD 2 = rstOf b := by simp [controlBits, rstOf]

theorem controlBits_bit_1 : (controlBits b).getLsbD 1 = cfgWeOf b := by simp [controlBits, cfgWeOf]

theorem controlBits_bit_0 : (controlBits b).getLsbD 0 = inValidOf b := by simp [controlBits, inValidOf]

theorem controlBits_eq_iff (c : BitVec 3) :
    controlBits b = c ↔
      rstOf b = c.getLsbD 2 ∧ cfgWeOf b = c.getLsbD 1 ∧ inValidOf b = c.getLsbD 0 := by
  rw [← controlBits_bit_2, ← controlBits_bit_1, ← controlBits_bit_0]
  constructor
  · rintro rfl
    exact ⟨rfl, rfl, rfl⟩
  · rintro ⟨h2, h1, h0⟩
    apply BitVec.eq_of_getLsbD_eq
    intro i hi
    interval_cases i
    exacts [h0, h1, h2]

/-! ## The rows as masks -/

/-- A mask of control bits, in the place where the bundle has them, keeps nothing of the fields. -/
theorem and_controlMask_eq_iff (m c : BitVec 3) : b &&& (m ++ 0#64) = c ++ 0#64 ↔ controlBits b &&& m = c := by
  have hb : b = controlBits b ++ b.extractLsb' 0 64 :=
    (BitVec.extractLsb'_append_extractLsb' (w := 3) (len := 64)).symm
  conv_lhs => rw [hb, BitVec.and_append, BitVec.and_zero]
  exact BitVec.append_left_inj 0#64

theorem and_rstMask_eq_iff : b &&& (0b100#3 ++ 0#64) = 0b100#3 ++ 0#64 ↔ rstOf b = true := by
  have hbit : ∀ c : BitVec 3, c &&& 0b100#3 = 0b100#3 ↔ c.getLsbD 2 = true := by decide
  rw [and_controlMask_eq_iff, hbit, controlBits_bit_2]

theorem and_allControlMask_eq_iff (c : BitVec 3) :
    b &&& (0b111#3 ++ 0#64) = c ++ 0#64 ↔
      rstOf b = c.getLsbD 2 ∧ cfgWeOf b = c.getLsbD 1 ∧ inValidOf b = c.getLsbD 0 := by
  have hall : controlBits b &&& 0b111#3 = controlBits b := BitVec.and_allOnes
  rw [and_controlMask_eq_iff, hall, controlBits_eq_iff]

theorem decode_eq_nop_iff : decode b = .nop ↔ rstOf b = false ∧ cfgWeOf b = false ∧ inValidOf b = false := by
  unfold decode
  cases rstOf b <;> cases cfgWeOf b <;> cases inValidOf b <;> simp

theorem decode_eq_apply_iff :
    (∃ p, decode b = .apply p) ↔ rstOf b = false ∧ cfgWeOf b = false ∧ inValidOf b = true := by
  unfold decode
  cases rstOf b <;> cases cfgWeOf b <;> cases inValidOf b <;> simp

theorem decode_eq_setgamma_iff :
    (∃ g, decode b = .setgamma g) ↔ rstOf b = false ∧ cfgWeOf b = true ∧ inValidOf b = false := by
  unfold decode
  cases rstOf b <;> cases cfgWeOf b <;> cases inValidOf b <;> simp

theorem decode_eq_applySetgamma_iff :
    (∃ p g, decode b = .applySetgamma p g) ↔ rstOf b = false ∧ cfgWeOf b = true ∧ inValidOf b = true := by
  unfold decode
  cases rstOf b <;> cases cfgWeOf b <;> cases inValidOf b <;> simp

end

/-- Settles O4: a row's mask takes control bits only, and its match gives them the values by which the decoder selects the row. -/
theorem opcodeTableRowsPartitionBundles : Obligations.OpcodeTableRowsPartitionBundles := fun b =>
  ⟨(and_rstMask_eq_iff b).trans (decode_eq_reset_iff b).symm,
    (and_allControlMask_eq_iff b 0b000#3).trans (decode_eq_nop_iff b).symm,
    (and_allControlMask_eq_iff b 0b001#3).trans (decode_eq_apply_iff b).symm,
    (and_allControlMask_eq_iff b 0b010#3).trans (decode_eq_setgamma_iff b).symm,
    (and_allControlMask_eq_iff b 0b011#3).trans (decode_eq_applySetgamma_iff b).symm⟩

/-! ## Decode of encode -/

theorem decode_encode (i : Instr) : decode (encode i) = i := by
  cases i with
  | reset =>
    obtain ⟨-, hr⟩ := Laws.ControlBits.reset
    exact decode_of_rst hr
  | nop =>
    obtain ⟨-, hr, hw, hv⟩ := Laws.ControlBits.nop
    exact decode_of_idle hr hw hv
  | apply p =>
    obtain ⟨-, hr, hw, hv⟩ := Laws.ControlBits.apply p
    rw [decode_of_valid hr hw hv, encode, pixelInOf_bundle]
  | setgamma g =>
    obtain ⟨-, hr, hw, hv⟩ := Laws.ControlBits.setgamma g
    rw [decode_of_write hr hw hv, encode, cfgWdataOf_bundle]
  | applySetgamma p g =>
    obtain ⟨-, hr, hw, hv⟩ := Laws.ControlBits.applySetgamma p g
    rw [decode_of_valid_write hr hw hv, encode, pixelInOf_bundle, cfgWdataOf_bundle]

/-- Settles O1. -/
theorem decodeOfEncodeIsIdentity : Obligations.DecodeOfEncodeIsIdentity := decode_encode

/-! ## Encode of decode -/

/-- The canonical bundle of what a bundle decodes to: a field is kept where the operation takes it as operand, and is 0 elsewhere. -/
theorem encode_decode (b : Bundle) :
    encode (decode b) =
      bundle (if rstOf b then 0b100#3 else controlBits b) (if !rstOf b && cfgWeOf b then cfgWdataOf b else 0#32)
        (if !rstOf b && inValidOf b then pixelInOf b else 0#32) := by
  cases hr : rstOf b with
  | true => rw [decode_of_rst hr]; rfl
  | false =>
    cases hw : cfgWeOf b <;> cases hv : inValidOf b
    case false.false =>
      rw [decode_of_idle hr hw hv, (controlBits_eq_iff b 0b000#3).mpr ⟨hr, hw, hv⟩]; rfl
    case false.true =>
      rw [decode_of_valid hr hw hv, (controlBits_eq_iff b 0b001#3).mpr ⟨hr, hw, hv⟩]; rfl
    case true.false =>
      rw [decode_of_write hr hw hv, (controlBits_eq_iff b 0b010#3).mpr ⟨hr, hw, hv⟩]; rfl
    case true.true =>
      rw [decode_of_valid_write hr hw hv, (controlBits_eq_iff b 0b011#3).mpr ⟨hr, hw, hv⟩]; rfl

section
variable (b : Bundle) {k : Nat}

theorem bitMatters_of_lt_64 (hk : k < 64) :
    bitMatters b k = (!rstOf b && (cfgWeOf b && decide (32 ≤ k) || inValidOf b && decide (k < 32))) := by
  have hne : ∀ j, 64 ≤ j → (k == j) = false := fun j hj => beq_eq_false_iff_ne.mpr (by omega)
  simp [bitMatters, hk, hne]

theorem bitMatters_of_pixelIn (hk : k < 32) : bitMatters b k = (!rstOf b && inValidOf b) := by
  simp [bitMatters_of_lt_64 b (k := k) (by omega), hk, Nat.not_le.mpr hk]

theorem bitMatters_of_cfgWdata (hlow : 32 ≤ k) (hk : k < 64) : bitMatters b k = (!rstOf b && cfgWeOf b) := by
  simp [bitMatters_of_lt_64 b hk, hlow, Nat.not_lt.mpr hlow]

/-- Of the control bits a `RESET` asks for its own only. -/
theorem controlBits_and_bitMatters {j : Nat} :
    ((controlBits b).getLsbD j && bitMatters b (64 + j)) = (if rstOf b then 0b100#3 else controlBits b).getLsbD j := by
  obtain rfl | rfl | rfl | hj : j = 0 ∨ j = 1 ∨ j = 2 ∨ 3 ≤ j := by omega
  · cases hr : rstOf b <;> simp [bitMatters, hr]
  · cases hr : rstOf b <;> simp [bitMatters, hr]
  · have hbit := controlBits_bit_2 b
    cases hr : rstOf b <;> simp [hbit, hr]
  · rw [BitVec.getLsbD_of_ge _ _ hj, BitVec.getLsbD_of_ge _ _ hj, Bool.false_and]

end

/-- A bit of a field that is kept or set to 0 as a whole. -/
theorem getLsbD_ite_zero (c : Bool) (x : BitVec 32) (k : Nat) :
    (if c then x else 0#32).getLsbD k = (x.getLsbD k && c) := by cases c <;> simp

/-- Settles O3, field by field. -/
theorem encodeOfDecodeClearsIgnoredBits : Obligations.EncodeOfDecodeClearsIgnoredBits := by
  intro b k
  have hb : b.getLsbD k = (bundle (controlBits b) (cfgWdataOf b) (pixelInOf b)).getLsbD k :=
    congrArg (·.getLsbD k) (eq_bundle b)
  rw [encode_decode, hb, bundle_getLsbD, bundle_getLsbD]
  by_cases h32 : k < 32
  · rw [if_pos h32, if_pos h32, getLsbD_ite_zero, bitMatters_of_pixelIn b h32]
  rw [if_neg h32, if_neg h32]
  by_cases h64 : k < 64
  · rw [if_pos h64, if_pos h64, getLsbD_ite_zero, bitMatters_of_cfgWdata b (not_lt.mp h32) h64]
  · obtain ⟨j, rfl⟩ := Nat.exists_eq_add_of_le (not_lt.mp h64)
    rw [if_neg h64, if_neg h64, Nat.add_sub_cancel_left, controlBits_and_bitMatters]

/-- Settles O13: the decoder reads the bits that matter only, and nothing else of the bundle reaches the step. -/
theorem ignoredBitsHaveNoEffect : Obligations.IgnoredBitsHaveNoEffect := by
  intro s b c h
  have hdecode : decode c = decode b := AgreesWhereItMatters.decode_eq h
  simp only [step, presented_present, hostAdvance_present, hdecode]

/-- Settles O5: seven closed words. -/
theorem writtenOutWordsDecode : Obligations.WrittenOutWordsDecode := by
  unfold Obligations.WrittenOutWordsDecode
  decide

end Sys2Proof
end

section
/-! The block of any latency (spec/40_interface_ops.md rule R44), said of its slots: what one clock cycle puts into each slot, where the word
accepted in a cycle is `k` cycles later, and which content `GAMMA` has. Slots are numbered from 0 here, the last one being shown. -/

namespace Sys2Proof.Machine

/-! ## What an operation accepts and writes -/

/-- `GAMMA` after an operation in the cycle number `cycle`, from its content before. -/
def gammaAfter (gamma : B32) (cycle : Nat) (i : Instr) : B32 :=
  if i = .reset then Config.openWord .gammaAfterReset cycle else i.gamma?.getD gamma

theorem gammaContent_succ (g0 : B32) (c0 : Nat) (ops : Nat → Instr) (t : Nat) :
    gammaContent g0 c0 ops (t + 1) = gammaAfter (gammaContent g0 c0 ops t) (c0 + t) (ops t) := by
  rw [gammaContent]
  cases ops t <;> rfl

/-- `GAMMA` keeps its content through cycles that neither write it nor reset it. -/
theorem gammaContent_of_idle {g0 : B32} {c0 : Nat} {ops : Nat → Instr} {w t : Nat} (hwt : w ≤ t)
    (hidle : ∀ j, w ≤ j → j < t → ops j ≠ .reset ∧ (ops j).gamma? = none) :
    gammaContent g0 c0 ops t = gammaContent g0 c0 ops w := by
  induction t, hwt using Nat.le_induction with
  | base => rfl
  | succ t hwt ih =>
    obtain ⟨hreset, hwrite⟩ := hidle t hwt t.lt_succ_self
    rw [gammaContent_succ, gammaAfter, if_neg hreset, hwrite, Option.getD_none]
    exact ih fun j hj hjt => hidle j hj (by omega)

/-- `GAMMA` holds the latest value written to it. -/
theorem gammaContent_of_write {g0 g : B32} {c0 : Nat} {ops : Nat → Instr} {w t : Nat} (hwt : w < t)
    (hwrite : (ops w).gamma? = some g)
    (hidle : ∀ j, w < j → j < t → ops j ≠ .reset ∧ (ops j).gamma? = none) :
    gammaContent g0 c0 ops t = g := by
  have hreset : ops w ≠ .reset := fun h => by simp [h, Instr.gamma?] at hwrite
  rw [gammaContent_of_idle hwt hidle, gammaContent_succ, gammaAfter, if_neg hreset, hwrite, Option.getD_some]

/-- Without a `RESET` the content of `GAMMA` does not depend on the number of the first cycle. -/
theorem gammaContent_congr_cycle {ops : Nat → Instr} (hops : ∀ j, ops j ≠ .reset) (g0 : B32) (c0 c1 t : Nat) :
    gammaContent g0 c0 ops t = gammaContent g0 c1 ops t := by
  induction t with
  | zero => rfl
  | succ t ih => rw [gammaContent_succ, gammaContent_succ, gammaAfter, gammaAfter, if_neg (hops t), if_neg (hops t), ih]

namespace PixelPipe

/-! ## One clock cycle, slot by slot -/

/-- The finished word in slot `k`, if there is one. -/
def slot (d : PixelPipe) (k : Nat) : Option Word := d.line[k]?.join

/-- The finished word of the pixel that an operation accepts, if it accepts one. -/
def enteringWord (gamma : B32) (i : Instr) : Option Word := i.pixel?.map fun p => applyPixel p gamma

section
variable (d : PixelPipe) (i : Instr)

theorem clock_gamma : (d.clock i).gamma = gammaAfter d.gamma d.cycle i := by cases i <;> rfl

theorem clock_cycle : (d.clock i).cycle = d.cycle + 1 := by cases i <;> rfl

theorem clock_line :
    (d.clock i).line =
      if i = .reset then d.line.map fun _ => none else (enteringWord d.gamma i :: d.line).dropLast := by
  cases i <;> rfl

theorem slot_of_length_le {k : Nat} (hk : d.line.length ≤ k) : d.slot k = none := by
  rw [slot, List.getElem?_eq_none hk, Option.join_none]

/-- A `RESET` empties every slot. -/
theorem slot_clock_reset (k : Nat) : (d.clock .reset).slot k = none := by
  rw [slot, clock_line, if_pos rfl, List.getElem?_map]
  cases d.line[k]? <;> rfl

/-- Slot 0 takes the word that enters; a `RESET` lets none enter. -/
theorem slot_clock_zero (hd : 1 ≤ d.line.length) : (d.clock i).slot 0 = enteringWord d.gamma i := by
  by_cases hi : i = .reset
  · subst hi; exact slot_clock_reset d 0
  · rw [slot, clock_line, if_neg hi, List.getElem?_dropLast, if_pos (by simpa using Nat.lt_of_succ_le hd)]
    rfl

/-- Every other slot takes the word of the slot before it, which a `RESET` drops. -/
theorem slot_clock_succ {k : Nat} (hk : k + 1 < d.line.length) :
    (d.clock i).slot (k + 1) = if i = .reset then none else d.slot k := by
  split
  case isTrue hi => rw [hi]; exact slot_clock_reset d _
  case isFalse hi =>
    rw [slot, clock_line, if_neg hi, List.getElem?_dropLast, if_pos (by simpa using hk)]
    rfl

/-- No slot holds a word exactly when the line is a row of empty slots. -/
theorem line_eq_replicate_none_iff :
    d.line = List.replicate d.line.length none ↔ ∀ k, k < d.line.length → d.slot k = none := by
  rw [List.eq_replicate_iff, and_iff_right rfl, List.forall_mem_iff_getElem]
  refine forall_congr' fun k => forall_congr' fun hk => ?_
  rw [slot, List.getElem?_eq_getElem hk, Option.join_some]

/-- The last slot is shown. -/
theorem shown_eq_slot : d.shown = d.slot (d.line.length - 1) := by rw [shown, List.getLast?_eq_getElem?, slot]

end

/-! ## Many clock cycles -/

section
variable (d : PixelPipe) (ops : Nat → Instr)

theorem after_succ (t : Nat) : d.after ops (t + 1) = (d.after ops t).clock (ops t) := rfl

theorem after_cycle (t : Nat) : (d.after ops t).cycle = d.cycle + t := by
  induction t with
  | zero => rfl
  | succ t ih => rw [after_succ, clock_cycle, ih, Nat.add_assoc]

theorem after_gamma (t : Nat) : (d.after ops t).gamma = gammaContent d.gamma d.cycle ops t := by
  induction t with
  | zero => rfl
  | succ t ih => rw [after_succ, clock_gamma, ih, after_cycle, gammaContent_succ]

/-- The word of the pixel accepted in cycle `t`, if one is. -/
def enteringAt (t : Nat) : Option Word := enteringWord (gammaContent d.gamma d.cycle ops t) (ops t)

variable {d ops}

/-- The word accepted in cycle `t` is in slot `k` after `k + 1` cycles, unless a `RESET` came after it. -/
theorem slot_after_eq_some_iff {k : Nat} (hk : k < d.line.length) (t : Nat) (w : Word) :
    (d.after ops (t + 1 + k)).slot k = some w ↔
      d.enteringAt ops t = some w ∧ ∀ j, t < j → j < t + 1 + k → ops j ≠ .reset := by
  induction k with
  | zero =>
    rw [Nat.add_zero, after_succ, slot_clock_zero _ _ (by rwa [after_length]), after_gamma, enteringAt]
    exact (and_iff_left fun j hj hjt => by omega).symm
  | succ k ih =>
    rw [← Nat.add_assoc, after_succ, slot_clock_succ _ _ (by rwa [after_length])]
    split
    case isTrue hreset =>
      exact iff_of_false (Option.some_ne_none w).symm fun h => h.2 (t + 1 + k) (by omega) (by omega) hreset
    case isFalse hreset =>
      rw [ih (by omega)]
      refine and_congr_right fun _ => ⟨fun h j hj hjt => ?_, fun h j hj hjt => h j hj (by omega)⟩
      obtain hlt | rfl := (Nat.lt_succ_iff.mp hjt).lt_or_eq
      · exact h j hj hlt
      · exact hreset

/-- A `RESET` keeps every slot empty into which nothing accepted after it can have come. -/
theorem slot_after_reset {j : Nat} (hreset : ops j = .reset) {m k : Nat} (hm : m ≤ k) :
    (d.after ops (j + 1 + m)).slot k = none := by
  obtain hk | hk := Nat.lt_or_ge k d.line.length
  · induction m generalizing k with
    | zero => rw [Nat.add_zero, after_succ, hreset, slot_clock_reset]
    | succ m ih =>
      obtain ⟨k, rfl⟩ : ∃ k', k = k' + 1 := ⟨k - 1, by omega⟩
      rw [← Nat.add_assoc, after_succ, slot_clock_succ _ _ (by rwa [after_length])]
      split
      · rfl
      · exact ih (by omega) (by omega)
  · exact slot_of_length_le _ (by rwa [after_length])

/-- A slot is empty if the cycle whose word would be in it accepted no pixel. -/
theorem slot_after_eq_none {k : Nat} (hk : k < d.line.length) {t : Nat} (hp : (ops t).pixel? = none) :
    (d.after ops (t + 1 + k)).slot k = none := by
  refine Option.eq_none_iff_forall_ne_some.mpr fun w hw => ?_
  have hword := ((slot_after_eq_some_iff hk t w).mp hw).1
  rw [enteringAt, enteringWord, hp] at hword
  cases hword

theorem enteringAt_eq_some_iff (t : Nat) (w : Word) :
    d.enteringAt ops t = some w ↔
      ∃ p, (ops t).pixel? = some p ∧ w = applyPixel p (gammaContent d.gamma d.cycle ops t) := by
  rw [enteringAt, enteringWord, Option.map_eq_some_iff]
  exact exists_congr fun p => and_congr_right fun _ => eq_comm

variable (hd : 1 ≤ d.line.length)
include hd

theorem shown_after_eq_some_iff (t : Nat) (w : Word) :
    (d.after ops (t + d.line.length)).shown = some w ↔
      d.enteringAt ops t = some w ∧ ∀ j, t < j → j < t + d.line.length → ops j ≠ .reset := by
  have hu : t + 1 + (d.line.length - 1) = t + d.line.length := by omega
  rw [shown_eq_slot, after_length, ← hu]
  exact slot_after_eq_some_iff (by omega) t w

theorem shown_after_reset {j u : Nat} (hreset : ops j = .reset) (hj : j < u) (hu : u ≤ j + d.line.length) :
    (d.after ops u).shown = none := by
  obtain ⟨m, rfl⟩ := Nat.exists_eq_add_of_lt hj
  rw [shown_eq_slot, after_length, Nat.add_right_comm]
  exact slot_after_reset hreset (by omega)

/-- Without a `RESET` every accepted pixel is shown. -/
theorem shown_after_of_no_reset (hops : ∀ j, ops j ≠ .reset) (t : Nat) :
    (d.after ops (t + d.line.length)).shown = d.enteringAt ops t :=
  Option.ext fun w => (shown_after_eq_some_iff hd t w).trans (and_iff_left fun j _ _ => hops j)

end

end PixelPipe

/-- Settles O44: the slot shown is the last one, `LATENCY` cycles after acceptance. -/
theorem portBehaviourForAnyLatency : Obligations.PortBehaviourForAnyLatency := by
  intro d ops u hd
  refine ⟨fun hu w => ?_, fun hu ⟨j, hj, hreset⟩ => PixelPipe.shown_after_reset hd hreset hj (by omega)⟩
  obtain ⟨t, rfl⟩ := Nat.exists_eq_add_of_le' hu
  rw [Nat.add_sub_cancel, PixelPipe.shown_after_eq_some_iff hd, PixelPipe.enteringAt_eq_some_iff]

/-- Settles O45: both lines show what enters in cycle `t`, which is the same word as long as no `RESET` draws a new `GAMMA`. -/
theorem latencyOnlyShiftsResults : Obligations.LatencyOnlyShiftsResults := by
  intro d e ops hd he hgamma hops t
  rw [PixelPipe.shown_after_of_no_reset hd hops, PixelPipe.shown_after_of_no_reset he hops, PixelPipe.enteringAt,
    PixelPipe.enteringAt, hgamma, gammaContent_congr_cycle hops]

end Sys2Proof.Machine
end

section
/-! The five stages as a delay line of length 5 (spec/40_interface_ops.md rule R44): a step is a clock cycle of the line, so what a run shows and
what `GAMMA` holds on the way are read off the line. -/

namespace Sys2Proof.Machine

/-! ## One step -/

/-- The state after one clock cycle. -/
def nextState (s : State) : State :=
  if decode (presented s) = .reset then resetEdge (hostAdvance s)
  else advance (hostAdvance s) (decode (presented s)).pixel? (decode (presented s)).gamma?

theorem step_eq_nextState (s : State) : step s = .next (nextState s) := step_eq s

theorem eq_nextState_of_step {s t : State} (h : step s = .next t) : t = nextState s := by
  rw [step_eq_nextState] at h
  injection h with h
  exact h.symm

theorem asPipe_resetEdge (s : State) : asPipe (resetEdge s) = (asPipe s).clock .reset := rfl

/-- Through the common edge the words in flight stay the same: what is left of the stages of a slot moves on with the slot. -/
theorem asPipe_advance {i : Instr} (hi : i ≠ .reset) (s : State) :
    asPipe (advance s i.pixel? i.gamma?) = (asPipe s).clock i := by
  cases i with
  | reset => exact absurd rfl hi
  | nop => rfl
  | apply p => rfl
  | setgamma g => rfl
  | applySetgamma p g => rfl

theorem asPipe_nextState (s : State) : asPipe (nextState s) = (asPipe s).clock (decode (presented s)) := by
  unfold nextState
  split
  case isTrue h => rw [h, asPipe_resetEdge]; rfl
  case isFalse h => exact asPipe_advance h (hostAdvance s)

theorem shown_eq_asPipe_shown (s : State) : shown s = (asPipe s).shown := by
  show (if s.v5 then some (pixelOut s) else none) = if s.v5 then some s.s5.px else none
  split
  case isTrue h => rw [pixelOut_of_v5 h]
  case isFalse => rfl

/-- Settles O43: the step on the line is the step of the structure. -/
theorem referenceRefinesTheDelayLine : Obligations.ReferenceRefinesTheDelayLine :=
  ⟨shown_eq_asPipe_shown, fun s _ h => eq_nextState_of_step h ▸ asPipe_nextState s⟩

/-! ## Runs -/

/-- The state after `n` clock cycles. -/
def stateAfter (s : State) (n : Nat) : State := nextState^[n] s

theorem stateAfter_succ (s : State) (n : Nat) : stateAfter s (n + 1) = stateAfter (nextState s) n := rfl

theorem stateAfter_succ' (s : State) (n : Nat) : stateAfter s (n + 1) = nextState (stateAfter s n) :=
  Function.iterate_succ_apply' nextState n s

theorem runsTo_stateAfter (s : State) (n : Nat) : RunsTo s n (stateAfter s n) := by
  induction n generalizing s with
  | zero => rfl
  | succ n ih =>
    rw [RunsTo, run_succ (step_eq_nextState s), stateAfter_succ]
    exact ih (nextState s)

theorem bundleAt_stateAfter (s : State) (n k : Nat) : bundleAt (stateAfter s n) k = bundleAt s (n + k) := by
  induction n generalizing s with
  | zero => rw [Nat.zero_add]; rfl
  | succ n ih => rw [stateAfter_succ, ih, bundleAt_step (step_eq_nextState s), Nat.add_right_comm]

/-- Along a run the structure stays the line that is clocked with the same operations. -/
theorem asPipe_stateAfter (s : State) (n : Nat) : asPipe (stateAfter s n) = (asPipe s).after (opAt s) n := by
  induction n with
  | zero => rfl
  | succ n ih =>
    rw [stateAfter_succ', asPipe_nextState, ih, PixelPipe.after_succ, presented, bundleAt_stateAfter, Nat.add_zero]
    rfl

theorem asPipe_length (s : State) : (asPipe s).line.length = 5 := rfl

theorem one_le_asPipe_length (s : State) : 1 ≤ (asPipe s).line.length := Nat.le_add_left 1 4

theorem stateAfter_gamma (s : State) (n : Nat) :
    (stateAfter s n).gamma = gammaContent s.gamma s.cycle (opAt s) n :=
  calc (stateAfter s n).gamma
    _ = (asPipe (stateAfter s n)).gamma := rfl
    _ = gammaContent s.gamma s.cycle (opAt s) n := by rw [asPipe_stateAfter, PixelPipe.after_gamma]; rfl

/-! ## The operations presented -/

theorem opAt_ne_reset_iff {s : State} {k : Nat} : opAt s k ≠ .reset ↔ rstOf (bundleAt s k) = false := by
  rw [opAt, ne_eq, decode_eq_reset_iff, Bool.not_eq_true]

theorem opAt_eq_reset {s : State} {k : Nat} (h : rstOf (bundleAt s k) = true) : opAt s k = .reset := decode_of_rst h

theorem opAt_idle {s : State} {k : Nat} (h : rstOf (bundleAt s k) = false ∧ cfgWeOf (bundleAt s k) = false) :
    opAt s k ≠ .reset ∧ (opAt s k).gamma? = none := by
  refine ⟨opAt_ne_reset_iff.mpr h.1, ?_⟩
  rw [opAt, decode_gamma?, h.2]
  simp

theorem opAt_pixel?_eq_some_iff {s : State} {k : Nat} {p : Word} :
    (opAt s k).pixel? = some p ↔
      rstOf (bundleAt s k) = false ∧ inValidOf (bundleAt s k) = true ∧ p = pixelInOf (bundleAt s k) := by
  rw [opAt, decode_pixel?, Option.ite_none_right_eq_some, Bool.and_eq_true, Bool.not_eq_true', and_assoc,
    Option.some_inj, eq_comm (b := p)]

/-! ## `GAMMA` along a run -/

/-- Settles O42. -/
theorem gammaStaysUntilWritten : Obligations.GammaStaysUntilWritten := fun s n hidle =>
  ⟨_, runsTo_stateAfter s n, (stateAfter_gamma s n).trans
    (gammaContent_of_idle n.zero_le fun j _ hj => opAt_idle (hidle j hj))⟩

/-- Settles O41. -/
theorem gammaIsTheLatestWrite : Obligations.GammaIsTheLatestWrite := fun s w t hwt hreset hwrite hidle => by
  have hgamma : (opAt s w).gamma? = some (cfgWdataOf (bundleAt s w)) := by
    rw [opAt, decode_gamma?, hreset, hwrite]
    rfl
  exact ⟨_, runsTo_stateAfter s t, (stateAfter_gamma s t).trans
    (gammaContent_of_write hwt hgamma fun j hj hjt => opAt_idle (hidle j hj hjt))⟩

/-! ## The ports along a run -/

/-- A word is shown exactly when `out_valid = 1` and it is on `pixel_out`. -/
theorem shown_eq_some_iff {s : State} {w : Word} : shown s = some w ↔ outValid s = true ∧ pixelOut s = w := by
  rw [shown]
  split <;> simp_all

theorem outValid_eq_false_iff {s : State} : outValid s = false ↔ shown s = none := by
  rw [shown]
  split <;> simp_all

theorem shown_stateAfter (s : State) (n : Nat) : shown (stateAfter s n) = ((asPipe s).after (opAt s) n).shown := by
  rw [shown_eq_asPipe_shown, asPipe_stateAfter]

/-- What is shown five cycles after the cycle `k`: the pixel of that cycle with the gamma of that cycle. -/
theorem shown_stateAfter_eq_some_iff {s : State} {k : Nat} {w : Word} :
    shown (stateAfter s (k + 5)) = some w ↔
      (∃ p, (opAt s k).pixel? = some p ∧ w = applyPixel p (stateAfter s k).gamma) ∧
        ∀ j, k < j → j < k + 5 → opAt s j ≠ .reset := by
  rw [shown_stateAfter, ← asPipe_length s, PixelPipe.shown_after_eq_some_iff (one_le_asPipe_length s),
    PixelPipe.enteringAt_eq_some_iff, stateAfter_gamma]
  rfl

/-- A `RESET` silences the five cycles after it. -/
theorem outValid_stateAfter_reset {s : State} {j u : Nat} (hreset : rstOf (bundleAt s j) = true) (hj : j < u)
    (hu : u ≤ j + 5) : outValid (stateAfter s u) = false := by
  rw [outValid_eq_false_iff, shown_stateAfter]
  exact PixelPipe.shown_after_reset (one_le_asPipe_length s) (opAt_eq_reset hreset) hj hu

/-- Settles O39: the line of length 5, in the words of the ports. -/
theorem portBehaviourOfTheReference : Obligations.PortBehaviourOfTheReference := by
  intro s u hu
  obtain ⟨k, rfl⟩ := Nat.exists_eq_add_of_le' hu
  rw [Nat.add_sub_cancel]
  refine ⟨_, _, runsTo_stateAfter s k, runsTo_stateAfter s (k + 5), ⟨fun hv => ?_, fun ⟨hr, hv, hj⟩ => ?_⟩, fun hv => ?_⟩
  · obtain ⟨⟨p, hp, -⟩, hj⟩ := shown_stateAfter_eq_some_iff.mp (shown_eq_some_iff.mpr ⟨hv, rfl⟩)
    obtain ⟨hr, hi, -⟩ := opAt_pixel?_eq_some_iff.mp hp
    exact ⟨hr, hi, fun j h1 h2 => opAt_ne_reset_iff.mp (hj j h1 h2)⟩
  · have hp := opAt_pixel?_eq_some_iff.mpr ⟨hr, hv, rfl⟩
    have hshown := shown_stateAfter_eq_some_iff.mpr
      ⟨⟨_, hp, rfl⟩, fun j h1 h2 => opAt_ne_reset_iff.mpr (hj j h1 h2)⟩
    exact (shown_eq_some_iff.mp hshown).1
  · obtain ⟨⟨p, hp, hw⟩, -⟩ := shown_stateAfter_eq_some_iff.mp (shown_eq_some_iff.mpr ⟨hv, rfl⟩)
    obtain ⟨-, -, rfl⟩ := opAt_pixel?_eq_some_iff.mp hp
    exact hw

/-- Settles O40. -/
theorem nothingShownSoonAfterReset : Obligations.NothingShownSoonAfterReset := fun s u _ hu hj hreset =>
  ⟨_, runsTo_stateAfter s u, outValid_stateAfter_reset hreset hj (by omega)⟩

/-- Settles O46: the bundle presented is that of cycle 0. -/
theorem resetDropsPixelsInFlight : Obligations.ResetDropsPixelsInFlight := fun s n hreset h1 h5 =>
  ⟨_, runsTo_stateAfter s n, outValid_stateAfter_reset (j := 0) hreset h1 (by omega)⟩

/-! ## Drained -/

/-- Drained means that no word is in flight. -/
theorem drained_iff_inFlight (s : State) : drained s = true ↔ inFlight s = List.replicate 5 none := by
  simp [drained, inFlight, and_assoc]

theorem drained_iff (s : State) : drained s = true ↔ ∀ k, k < 5 → (asPipe s).slot k = none :=
  (drained_iff_inFlight s).trans (asPipe s).line_eq_replicate_none_iff

/-- Five cycles without a pixel drain the block. -/
theorem drained_stateAfter {s : State} {n : Nat} (hidle : ∀ j, n ≤ j → j < n + 5 → (opAt s j).pixel? = none) :
    drained (stateAfter s (n + 5)) = true := by
  rw [drained_iff, asPipe_stateAfter]
  intro k hk
  obtain ⟨m, hm⟩ : ∃ m, n + 5 = n + m + 1 + k := ⟨4 - k, by omega⟩
  rw [hm]
  exact PixelPipe.slot_after_eq_none hk (hidle (n + m) (by omega) (by omega))

/-- A pixel accepted in cycle `j` is in flight for five cycles, if no `RESET` drops it. -/
theorem not_drained_stateAfter {s : State} {j k : Nat} (hk : k < 5) (hp : (opAt s j).pixel?.isSome = true)
    (hreset : ∀ i, j < i → i < j + 1 + k → opAt s i ≠ .reset) : drained (stateAfter s (j + 1 + k)) = false := by
  obtain ⟨p, hp⟩ := Option.isSome_iff_exists.mp hp
  have hslot := (PixelPipe.slot_after_eq_some_iff (d := asPipe s) hk j _).mpr
    ⟨(PixelPipe.enteringAt_eq_some_iff j _).mpr ⟨p, hp, rfl⟩, hreset⟩
  rw [← asPipe_stateAfter] at hslot
  rw [Bool.eq_false_iff, ne_eq, drained_iff]
  intro h
  rw [h k hk] at hslot
  cases hslot

/-- Settles O47: the pixel of cycle 0 is in slot `n - 1` of the line in the cycles 1 to 5; from the cycle 6 on every word in flight
would have entered in a later cycle. -/
theorem drainedSixCyclesAfterTheLastPixel : Obligations.DrainedSixCyclesAfterTheLastPixel := by
  intro s n hp hreset
  refine ⟨fun h1 h5 => ⟨_, runsTo_stateAfter s n, ?_⟩, fun h6 hidle => ⟨_, runsTo_stateAfter s n, ?_⟩⟩
  · obtain ⟨k, rfl⟩ := Nat.exists_eq_add_of_le h1
    rw [← Nat.zero_add 1] at hreset ⊢
    exact not_drained_stateAfter (by omega) hp fun i h0 hi => opAt_ne_reset_iff.mpr (hreset i h0 hi)
  · obtain ⟨k, rfl⟩ := Nat.exists_eq_add_of_le' (show 5 ≤ n by omega)
    exact drained_stateAfter fun j hj hjk => hidle j (by omega) hjk

end Sys2Proof.Machine
end

section
/-! The step and the operations that accept a pixel or reset (spec/40_interface_ops.md rules R35, R36, R38, R40), and what every step keeps
of the data in the slots (spec/10_state.md rule R13). -/

namespace Sys2Proof.Machine

/-! ## The step -/

theorem presented_of_pending {s : State} {b : Bundle} {bs : List Bundle} (h : s.pending = b :: bs) :
    presented s = b := by rw [presented, bundleAt, h]; rfl

theorem presented_of_empty {s : State} (h : s.pending = []) : presented s = Config.hostBundle s.cycle := by
  rw [presented, bundleAt, h]; rfl

theorem hostAdvance_of_empty {s : State} (h : s.pending = []) : hostAdvance s = s := by
  have hp : s.pending.tail = s.pending := by rw [h]; rfl
  rw [hostAdvance, hp]

/-- Settles O6. -/
theorem stepRunsThePresentedOperation : Obligations.StepRunsThePresentedOperation := by
  refine ⟨fun s b bs h => ?_, fun s h => ?_⟩
  · rw [step, presented_of_pending h, hostAdvance, h, List.tail_cons]
  · rw [step, presented_of_empty h, hostAdvance_of_empty h]

/-! ## The operations -/

theorem drained_resetEdge (s : State) : drained (resetEdge s) = true := by simp [drained]

/-- Settles O8: the edge of `RESET`, field by field. -/
theorem resetClearsEveryValidBit : Obligations.ResetClearsEveryValidBit := fun s =>
  ⟨_, exec_eq .reset s, resetEdge_v1 s, resetEdge_v2 s, resetEdge_v3 s, resetEdge_v4 s, resetEdge_v5 s,
    resetEdge_v5 s, drained_resetEdge s, resetEdge_pending s, resetEdge_cycle s⟩

/-- What an operation that accepts a pixel does: the slots advance, slot 1 takes the codes of the pixel beside the content that
`GAMMA` had, and `GAMMA` takes the value written, or keeps its content where none is. -/
theorem exec_with_pixel {i : Instr} {p : Word} (hp : i.pixel? = some p) (s : State) :
    ∃ t, exec i s = .next t ∧ SlotsAdvance s t ∧ t.v1 = true ∧
      t.s1 = ⟨p.extractLsb' 0 8, p.extractLsb' 8 8, p.extractLsb' 16 8, p.extractLsb' 24 8, s.gamma⟩ ∧
      t.gamma = i.gamma?.getD s.gamma := by
  have hi : i ≠ .reset := by rintro rfl; cases hp
  refine ⟨_, exec_eq_advance hi s, slotsAdvance_advance s _ _, ?_, ?_, advance_gamma s _ _⟩
  · rw [advance_v1, hp, Option.isSome_some]
  · rw [advance_s1, hp]
    rfl

/-- Settles O10: `APPLY p` accepts `p` and writes nothing. -/
theorem applyCapturesPixelAndGamma : Obligations.ApplyCapturesPixelAndGamma := fun p =>
  exec_with_pixel (i := .apply p) rfl

/-- Settles O12: `APPLY_SETGAMMA p, g` accepts `p` and writes `g`. -/
theorem applySetgammaCapturesOldGamma : Obligations.ApplySetgammaCapturesOldGamma := fun p g =>
  exec_with_pixel (i := .applySetgamma p g) rfl

/-! ## The data of the valid slots -/

/-- Stage 2 answers normalised codes, from whatever slot 1 holds. -/
theorem isNormalised_norm (c : Code) : isNormalised (norm c) = true := (isNormalised_iff _).mpr ⟨c, rfl⟩

/-- Stage 3 answers what slot 3 may hold. -/
theorem isPowResult_pow {x : B32} (hx : isNormalised x = true) (y : B32) : isPowResult (pow x y) = true := by
  obtain hq | hle | ⟨-, hn, hs, -⟩ := pow_range hx y
  · rw [hq]; decide
  · simp [isPowResult, sign_of_le_one hle, isNaN_of_le_one hle]
  · simp [isPowResult, hs, hn]

/-- Slots in which no valid bit but the first and the last is set are legal with any data. -/
theorem slotsLegal_of_empty {s : State} (h2 : s.v2 = false) (h3 : s.v3 = false) (h4 : s.v4 = false) :
    slotsLegal s = true := by simp [slotsLegal, h2, h3, h4]

/-- The common edge keeps the slots legal: each stage brings data that its slot may hold, from legal data of the slot before. -/
theorem slotsLegal_advance {s : State} (h : slotsLegal s = true) (e : Option Word) (w : Option B32) :
    slotsLegal (advance s e w) = true := by
  simp only [slotsLegal, Bool.and_eq_true, Bool.or_eq_true, Bool.not_eq_true', decide_eq_true_eq] at h ⊢
  obtain ⟨⟨h2, h3⟩, -⟩ := h
  refine ⟨⟨.inr ?_, h2.imp_right ?_⟩, h3.imp_right ?_⟩
  · exact ⟨⟨⟨isNormalised_norm _, isNormalised_norm _⟩, isNormalised_norm _⟩, isNormalised_norm _⟩
  · rintro ⟨⟨⟨hr, hg⟩, hb⟩, ha⟩
    exact ⟨⟨⟨isPowResult_pow hr _, isPowResult_pow hg _⟩, isPowResult_pow hb _⟩, ha⟩
  · rintro ⟨-, ha⟩
    exact ⟨⟨⟨clamp_le_one _, clamp_le_one _⟩, clamp_le_one _⟩, ha⟩

/-- Settles O37: a step is the edge of `RESET`, which leaves no slot valid, or the common edge. -/
theorem stepKeepsSlotsLegal : Obligations.StepKeepsSlotsLegal := by
  intro s t h hstep
  have hhost : slotsLegal (hostAdvance s) = true := h
  rw [eq_nextState_of_step hstep, nextState]
  split
  · exact slotsLegal_of_empty rfl rfl rfl
  · exact slotsLegal_advance hhost _ _

/-- Settles O38. -/
theorem resetStateIsDrainedAndLegal : Obligations.ResetStateIsDrainedAndLegal :=
  ⟨rfl, slotsLegal_of_empty rfl rfl rfl, rfl, rfl⟩

end Sys2Proof.Machine
end

section
/-! Runs with a given list of bundles: a processing pass (spec/30_encoding.md rule R34), and a host that sets `GAMMA` before it uses it
(spec/70_reset_and_hazards.md rules R77, R82). -/

namespace Sys2Proof.Machine

/-! ## The operations of a pass -/

/-- A listed operation is presented in its cycle. -/
theorem opAt_of_pending {s : State} {ops : List Instr} {rest : List Bundle} {k : Nat} {i : Instr}
    (h : s.pending = ops.map encode ++ rest) (hk : ops[k]? = some i) : opAt s k = i := by
  have hlt : k < (ops.map encode).length := by
    rw [List.length_map]
    exact (List.getElem?_eq_some_iff.mp hk).1
  rw [opAt, bundleAt, h, List.getD_eq_getElem?_getD, List.getElem?_append_left hlt, List.getElem?_map, hk]
  exact decode_encode i

theorem traceBundles_singleton (latency : Nat) (l : TraceLine) :
    traceBundles latency [l] = (expandLine latency l).map encode := by rw [traceBundles, List.flatMap_singleton]

section
variable {s : State} {g : B32} {pixels : List Word} {rest : List Bundle}
  (h : s.pending = traceBundles Config.latency [.pass g pixels] ++ rest)
include h

theorem opAt_pass {k : Nat} {i : Instr} (hk : (expandLine 5 (.pass g pixels))[k]? = some i) : opAt s k = i :=
  opAt_of_pending (h.trans (by rw [traceBundles_singleton]; rfl)) hk

theorem opAt_pass_zero : opAt s 0 = .setgamma g := opAt_pass h rfl

theorem opAt_pass_pixel {k : Nat} {p : Word} (hk : pixels[k]? = some p) : opAt s (k + 1) = .apply p := by
  have hlt : k < (pixels.map Instr.apply).length := by
    rw [List.length_map]
    exact (List.getElem?_eq_some_iff.mp hk).1
  refine opAt_pass h ?_
  rw [expandLine, List.getElem?_cons_succ, List.getElem?_append_left hlt, List.getElem?_map, hk, Option.map_some]

theorem opAt_pass_nop {j : Nat} (hj : j < 5) : opAt s (pixels.length + 1 + j) = .nop := by
  refine opAt_pass h ?_
  rw [expandLine, Nat.add_right_comm, List.getElem?_cons_succ, List.getElem?_append_right (by simp), List.length_map,
    Nat.add_sub_cancel_left, List.getElem?_replicate, if_pos hj]

/-- After its first cycle a pass neither writes `GAMMA` nor resets. -/
theorem opAt_pass_idle {j : Nat} (h0 : 0 < j) (hj : j < pixels.length + 6) :
    opAt s j ≠ .reset ∧ (opAt s j).gamma? = none := by
  obtain hlt | hge := Nat.lt_or_ge (j - 1) pixels.length
  · have hop := opAt_pass_pixel h (List.getElem?_eq_getElem hlt)
    rw [Nat.sub_add_cancel h0] at hop
    rw [hop]
    exact ⟨Instr.noConfusion, rfl⟩
  · obtain ⟨i, rfl⟩ := Nat.exists_eq_add_of_le (show pixels.length + 1 ≤ j by omega)
    rw [opAt_pass_nop h (by omega)]
    exact ⟨Instr.noConfusion, rfl⟩

theorem stateAfter_pass_gamma {t : Nat} (h0 : 0 < t) (ht : t ≤ pixels.length + 6) : (stateAfter s t).gamma = g := by
  rw [stateAfter_gamma]
  exact gammaContent_of_write h0 (by rw [opAt_pass_zero h]; rfl) fun j hj hjt => opAt_pass_idle h hj (by omega)

theorem shown_stateAfter_pass {k : Nat} {p : Word} (hk : pixels[k]? = some p) :
    shown (stateAfter s (k + 6)) = some (applyPixel p g) := by
  have hlt : k < pixels.length := (List.getElem?_eq_some_iff.mp hk).1
  refine shown_stateAfter_eq_some_iff.mpr ⟨⟨p, by rw [opAt_pass_pixel h hk]; rfl, ?_⟩, fun j hj hjk => ?_⟩
  · rw [stateAfter_pass_gamma h k.succ_pos (by omega)]
  · exact (opAt_pass_idle h (by omega) (by omega)).1

theorem drained_stateAfter_pass : drained (stateAfter s (pixels.length + 6)) = true := by
  refine drained_stateAfter (n := pixels.length + 1) fun j hj hj5 => ?_
  obtain ⟨i, rfl⟩ := Nat.exists_eq_add_of_le hj
  rw [opAt_pass_nop h (by omega)]
  rfl

end

/-- Settles O48: pixel `k` is accepted in cycle `k + 1`, and the five `NOP` at the end drain the block. -/
theorem passShowsEveryResultInOrder : Obligations.PassShowsEveryResultInOrder := by
  intro s g pixels rest h
  refine ⟨fun k p hk => ⟨_, runsTo_stateAfter s _, shown_eq_some_iff.mp (shown_stateAfter_pass h hk)⟩,
    _, runsTo_stateAfter s _, drained_stateAfter_pass h, stateAfter_pass_gamma h (Nat.succ_pos _) le_rfl⟩

/-! ## A host that sets `GAMMA` before it uses it -/

/-- Whether `GAMMA` is known to be set after an operation, from whether it was before. -/
def knownAfter (known : Bool) (i : Instr) : Bool :=
  if i = .reset then false else known || i.gamma?.isSome

theorem setBeforeUse_cons (known : Bool) (i : Instr) (is : List Instr) :
    setBeforeUse known (i :: is) = true ↔
      (i.pixel?.isSome = true → known = true) ∧ setBeforeUse (knownAfter known i) is = true := by
  cases i <;> cases known <;> simp [setBeforeUse, knownAfter, Instr.pixel?, Instr.gamma?]

/-- Two delay lines that cannot be told apart by a host that relies on `GAMMA` only where it is known to be set: they hold the same
words, and the same `GAMMA` if it is known. Their cycle numbers, and so their draws of the free values, may differ. -/
structure PixelPipe.Indistinct (known : Bool) (d e : PixelPipe) : Prop where
  line : d.line = e.line
  gamma : known = true → d.gamma = e.gamma

namespace PixelPipe.Indistinct

variable {known : Bool} {d e : PixelPipe}

theorem shown_eq (h : Indistinct known d e) : d.shown = e.shown := by rw [PixelPipe.shown, PixelPipe.shown, h.line]

/-- A cycle in which no pixel meets an unknown `GAMMA` keeps them so. -/
theorem clock (h : Indistinct known d e) {i : Instr} (hi : i.pixel?.isSome = true → known = true) :
    Indistinct (knownAfter known i) (d.clock i) (e.clock i) where
  line := by
    have hword : enteringWord d.gamma i = enteringWord e.gamma i := by
      unfold enteringWord
      cases hp : i.pixel? with
      | none => rw [Option.map_none, Option.map_none]
      | some p => rw [h.gamma (hi (by rw [hp]; rfl))]
    rw [clock_line, clock_line, h.line, hword]
  gamma hk := by
    by_cases hreset : i = .reset
    · rw [knownAfter, if_pos hreset] at hk; cases hk
    rw [knownAfter, if_neg hreset, Bool.or_eq_true] at hk
    rw [clock_gamma, clock_gamma, gammaAfter, gammaAfter, if_neg hreset, if_neg hreset]
    obtain hk | hk := hk
    · rw [h.gamma hk]
    · obtain ⟨g, hg⟩ := Option.isSome_iff_exists.mp hk
      rw [hg, Option.getD_some, Option.getD_some]

end PixelPipe.Indistinct

theorem nextState_pending (s : State) : (nextState s).pending = s.pending.tail :=
  (step_pending (step_eq_nextState s)).1

/-- While the host's list lasts and sets `GAMMA` before it uses it, two such states show the same. -/
theorem shown_stateAfter_congr {s t : State} {known : Bool} (h : (asPipe s).Indistinct known (asPipe t))
    (hp : s.pending = t.pending) (hset : setBeforeUse known (s.pending.map decode) = true) {n : Nat}
    (hn : n ≤ s.pending.length) : shown (stateAfter s n) = shown (stateAfter t n) := by
  induction n generalizing s t known with
  | zero =>
    show shown s = shown t
    rw [shown_eq_asPipe_shown, shown_eq_asPipe_shown, h.shown_eq]
  | succ n ih =>
    obtain ⟨b, bs, hb⟩ := List.exists_cons_of_length_pos (show 0 < s.pending.length by omega)
    have htail : (nextState s).pending = bs := by rw [nextState_pending, hb, List.tail_cons]
    rw [hb, List.map_cons, setBeforeUse_cons] at hset
    obtain ⟨huse, hset⟩ := hset
    have hclock := h.clock huse
    rw [stateAfter_succ, stateAfter_succ]
    refine ih (known := knownAfter known (decode b)) ?_ ?_ (by rwa [htail]) (by rw [htail]; simpa [hb] using hn)
    · rw [asPipe_nextState, asPipe_nextState, presented_of_pending hb, presented_of_pending (hp ▸ hb)]
      exact hclock
    · rw [nextState_pending, nextState_pending, hp]

/-- Settles O49: at the start no slot holds a word and `GAMMA` is not known. -/
theorem unspecifiedGammaIsNeverSeen : Obligations.UnspecifiedGammaIsNeverSeen := by
  intro s t hs ht hp hset n hn
  have hline : (asPipe s).line = (asPipe t).line :=
    ((drained_iff_inFlight s).mp hs).trans ((drained_iff_inFlight t).mp ht).symm
  exact ⟨_, _, runsTo_stateAfter s n, runsTo_stateAfter t n,
    shown_stateAfter_congr ⟨hline, fun h => absurd h Bool.false_ne_true⟩ hp hset hn⟩

end Sys2Proof.Machine
end

section
/-! The order of the patterns of sign 0 and the rounding functions on it (spec/00_scope.md rule R10): the order is that of the values, and
`PACK` keeps it, as both of its roundings do (spec/45_rgba_repack.md rule R62). -/

namespace Sys2Proof.Machine

/-! ## Rounding -/

/-- Settles O15, by the sign. -/
theorem rationalsRoundToNearestEven : Obligations.RationalsRoundToNearestEven := by
  intro neg num den hden
  cases neg with
  | false => rw [if_neg Bool.false_ne_true, one_mul]; exact isRNE32_rne32 num hden
  | true => rw [if_pos rfl, neg_one_mul]; exact isRNE32_rne32_true num hden

/-- Settles O16. -/
theorem integersRoundToNearestEven : Obligations.IntegersRoundToNearestEven := by
  intro num den hden
  obtain hlt | ⟨heq, heven⟩ := rint_nearest num hden
  · exact ⟨hlt.le, fun he => absurd he hlt.ne⟩
  · exact ⟨heq.le, fun _ => heven⟩

/-- Settles O17. -/
theorem patternOrderIsValueOrder : Obligations.PatternOrderIsValueOrder := by
  intro a b ha hb _ _
  refine ⟨val_le_val ha hb, fun hval => ?_⟩
  by_contra hle
  exact hval.not_gt (val_lt_val hb ha (BitVec.not_le.mp hle))

/-- Where the integer parts differ, the larger one absorbs the rounding of the smaller; where they agree, the remainders decide. -/
theorem rint_mono {num num' : Nat} (den : Nat) (h : num ≤ num') : rint num den ≤ rint num' den := by
  have hdiv : num / den ≤ num' / den := Nat.div_le_div_right h
  have hrem : num / den = num' / den → num % den ≤ num' % den := fun heq => by
    have hnum := Nat.div_add_mod num den
    have hnum' := Nat.div_add_mod num' den
    rw [heq] at hnum
    omega
  obtain ⟨h1, hr⟩ | ⟨h1, hr⟩ | ⟨h1, hr⟩ := rint_cases num den <;>
    obtain ⟨h2, hr'⟩ | ⟨h2, hr'⟩ | ⟨h2, hr'⟩ := rint_cases num' den <;>
    omega

/-! ## The two roundings of `PACK` on the patterns of sign 0 -/

section
variable {v : B32} (h : v ≤ pInf)
include h

theorem sign_of_le_pInf : sign v = false := by
  have hv : v.toNat ≤ 0x7F800000 := h
  rw [sign_eq, decide_eq_false_iff_not]
  omega

theorem isNaN_of_le_pInf : isNaN v = false := by
  have hv : v.toNat ≤ 0x7F800000 := h
  rw [Bool.eq_false_iff, ne_eq, isNaN_iff, magnitude_of_sign (sign_of_le_pInf h)]
  omega

theorem packProduct_of_lt_pInf (hne : v ≠ pInf) : packProduct v = rne32 false (units v * 255) (2 ^ 150) := by
  have hv : v.toNat ≤ 0x7F800000 := h
  have hfin : isFinite v = true := by
    rw [isFinite_iff, magnitude_of_sign (sign_of_le_pInf h)]
    exact lt_of_le_of_ne hv (BitVec.toNat_ne_iff_ne.mpr hne)
  rw [packProduct, isInf_of_isFinite hfin, if_neg Bool.false_ne_true, sign_of_le_pInf h]

/-- The product keeps to the patterns of sign 0 up to the infinity. -/
theorem packProduct_le_pInf : packProduct v ≤ pInf := by
  by_cases hne : v = pInf
  · subst hne; exact BitVec.le_refl pInf
  · rw [packProduct_of_lt_pInf h hne, BitVec.le_def, toNat_rne32 _ (Nat.two_pow_pos 150)]
    exact roundPattern_le _

end

theorem packProduct_mono {v w : B32} (hw : w ≤ pInf) (h : v ≤ w) : packProduct v ≤ packProduct w := by
  have hv : v ≤ pInf := BitVec.le_trans h hw
  by_cases hwi : w = pInf
  · rw [hwi]; exact packProduct_le_pInf hv
  have hvi : v ≠ pInf := by rintro rfl; exact hwi (BitVec.le_antisymm hw h)
  have hunits : units v ≤ units w := by
    rw [units_of_sign (sign_of_le_pInf hv), units_of_sign (sign_of_le_pInf hw)]
    exact patternUnits_strictMono.monotone h
  rw [packProduct_of_lt_pInf hv hvi, packProduct_of_lt_pInf hw hwi]
  exact rne32_mono _ (Nat.two_pow_pos 150) (Nat.mul_le_mul_right 255 hunits)

/-- The code of a product of sign 0: saturated, or the nearest integer, which for a product of zero is the code 0. -/
theorem toNat_pack {v : B32} (h : v ≤ pInf) :
    (pack v).toNat = if f255 ≤ packProduct v then 255 else rint (units (packProduct v)) (2 ^ 150) := by
  have hn := isNaN_of_le_pInf h
  have hs := sign_of_le_pInf (packProduct_le_pInf h)
  split_ifs with h255
  · rw [pack_of_f255_le hn hs h255]; rfl
  cases hz : isZero (packProduct v) with
  | true =>
    rw [pack_of_sign_or_isZero (.inr hz), units_eq_zero_iff.mpr hz, ← Nat.zero_mul (2 ^ 150),
      rint_mul_self 0 (Nat.two_pow_pos 150)]
    rfl
  | false => exact toNat_pack_of_lt_f255 hn hs hz (BitVec.not_le.mp h255)

theorem pack_mono {v w : B32} (hw : w ≤ pInf) (h : v ≤ w) : pack v ≤ pack w := by
  have hv : v ≤ pInf := BitVec.le_trans h hw
  have hm : packProduct v ≤ packProduct w := packProduct_mono hw h
  by_cases h255 : f255 ≤ packProduct w
  · rw [BitVec.le_def, toNat_pack hw, if_pos h255]
    exact Nat.le_of_lt_succ (pack v).isLt
  · have hlow : ¬ f255 ≤ packProduct v := fun hle => h255 (BitVec.le_trans hle hm)
    rw [BitVec.le_def, toNat_pack hv, toNat_pack hw, if_neg h255, if_neg hlow,
      units_of_sign (sign_of_le_pInf (packProduct_le_pInf hv)), units_of_sign (sign_of_le_pInf (packProduct_le_pInf hw))]
    exact rint_mono _ (patternUnits_strictMono.monotone hm)

/-- Settles O30. -/
theorem packIsMonotone : Obligations.PackIsMonotone := fun _ _ => pack_mono

end Sys2Proof.Machine
end

section
/-! What a gamma does to a code, by class of gamma (spec/43_fp_power_unit.md rules R58, R59; spec/40_interface_ops.md rule R45): said once for
a colour lane with any power unit that has the properties PW1 to PW5, and then of the reference. -/

namespace Sys2Proof.Machine

/-! ## The classes of codes and of gammas -/

theorem isInnerBase_norm {c : Code} (h0 : c ≠ 0#8) (h255 : c ≠ 255#8) : isInnerBase (norm c) = true :=
  (isInnerBase_iff _).mpr ⟨c, h0, h255, rfl⟩

theorem norm_ne_pZero {c : Code} (h0 : c ≠ 0#8) : norm c ≠ pZero := norm_injective.ne h0

theorem norm_ne_one {c : Code} (h255 : c ≠ 255#8) : norm c ≠ one := norm_255 ▸ norm_injective.ne h255

/-- A gamma that is neither NaN nor zero is an exponent of the general case or an infinity. -/
theorem isInnerExponent_or_inf {y : B32} (hn : isNaN y = false) (hz : isZero y = false) :
    isInnerExponent y = true ∨ y = pInf ∨ y = nInf := by
  cases hf : isFinite y with
  | true => exact .inl ((isInnerExponent_iff y).mpr ⟨hf, hz⟩)
  | false => exact .inr (eq_inf_of_not_finite hf hn)

/-! ## `PACK` after `CLAMP` -/

theorem pack_pZero : pack pZero = 0#8 := norm_zero ▸ pack_norm 0#8

theorem pack_one : pack one = 255#8 := norm_255 ▸ pack_norm 255#8

theorem pack_clamp_of_one_le {v : B32} (hn : isNaN v = false) (hs : sign v = false) (h : one ≤ v) :
    pack (clamp v) = 255#8 := by rw [clamp_of_one_le hn hs h, pack_one]

theorem le_pInf_of_le_one {v : B32} (h : v ≤ one) : v ≤ pInf := BitVec.le_trans h (by decide)

/-- Up to 1.0, where `CLAMP` changes nothing, `PACK` keeps the order. -/
theorem pack_clamp_mono {v w : B32} (hw : w ≤ one) (h : v ≤ w) : pack (clamp v) ≤ pack (clamp w) := by
  rw [clamp_of_le_one hw, clamp_of_le_one (BitVec.le_trans h hw)]
  exact pack_mono (le_pInf_of_le_one hw) h

/-! ## Any power unit -/

section
variable {fn : B32 → B32 → B32} {c c' : Code} {g : B32}

theorem chanWith_255 : chanWith fn 255#8 g = 255#8 := by
  rw [chanWith, norm_255, powCases_one, clamp_of_le_one (BitVec.le_refl one), pack_one]

theorem chanWith_of_isNaN (hn : isNaN g = true) (h255 : c ≠ 255#8) : chanWith fn c g = 0#8 := by
  rw [chanWith, powCases_of_isNaN (norm_ne_one h255) hn, clamp_of_isNaN (by decide), pack_pZero]

theorem powCases_norm_zero (hn : isNaN g = false) (hs : sign g = false) (hz : isZero g = false) :
    powCases fn (norm 0#8) g = pZero := by rw [norm_zero, powCases_zero hz hn, hs, if_neg Bool.false_ne_true]

theorem chanWith_zero (hn : isNaN g = false) (hs : sign g = false) (hz : isZero g = false) :
    chanWith fn 0#8 g = 0#8 := by
  rw [chanWith, powCases_norm_zero hn hs hz, clamp_of_isZero (by decide), pack_pZero]

theorem chanWith_pInf (h255 : c ≠ 255#8) : chanWith fn c pInf = 0#8 := by
  by_cases h0 : c = 0#8
  · subst h0; exact chanWith_zero (by decide) (by decide) (by decide)
  · rw [chanWith, powCases_pInf (norm_ne_pZero h0) (norm_ne_one h255), clamp_of_isZero (by decide), pack_pZero]

variable (hfn : PowerProperties fn)
include hfn

/-- At a zero or negative gamma every power is a number from 1.0 on: PW4 in the general case. -/
theorem one_le_powCases (hn : isNaN g = false) (hg : sign g = true ∨ isZero g = true) (c : Code) :
    isNaN (powCases fn (norm c) g) = false ∧ sign (powCases fn (norm c) g) = false ∧ one ≤ powCases fn (norm c) g := by
  cases hz : isZero g with
  | true => rw [powCases_of_isZero hz]; decide
  | false =>
  have hs : sign g = true := hg.resolve_right (by rw [hz]; exact Bool.false_ne_true)
  by_cases h255 : c = 255#8
  · rw [h255, norm_255, powCases_one]; decide
  by_cases h0 : c = 0#8
  · rw [h0, norm_zero, powCases_zero hz hn, hs]; decide
  obtain hg | rfl | rfl := isInnerExponent_or_inf hn hz
  · have hx := isInnerBase_norm h0 h255
    rw [powCases_inner hx hg]
    obtain ⟨hnan, hsign, -⟩ := hfn.pw2 _ g hx hg
    exact ⟨hnan, hsign, hfn.pw4 _ g hx hg hs⟩
  · exact absurd hs (by decide)
  · rw [powCases_nInf (norm_ne_pZero h0) (norm_ne_one h255)]; decide

theorem chanWith_of_sign_or_isZero (hn : isNaN g = false) (hg : sign g = true ∨ isZero g = true) (c : Code) :
    chanWith fn c g = 255#8 := by
  obtain ⟨hnan, hsign, hone⟩ := one_le_powCases hfn hn hg c
  exact pack_clamp_of_one_le hnan hsign hone

/-- At a positive gamma no power is above 1.0: PW3 in the general case. -/
theorem powCases_le_one (hn : isNaN g = false) (hs : sign g = false) (hz : isZero g = false) (c : Code) :
    powCases fn (norm c) g ≤ one := by
  by_cases h255 : c = 255#8
  · rw [h255, norm_255, powCases_one]; exact BitVec.le_refl one
  by_cases h0 : c = 0#8
  · rw [h0, powCases_norm_zero hn hs hz]; decide
  obtain hg | rfl | rfl := isInnerExponent_or_inf hn hz
  · have hx := isInnerBase_norm h0 h255
    rw [powCases_inner hx hg]
    exact hfn.pw3 _ g hx hg hs
  · rw [powCases_pInf (norm_ne_pZero h0) (norm_ne_one h255)]; decide
  · exact absurd hs (by decide)

/-- At a positive gamma the power is nondecreasing in the code: the codes 0 and 255 give the bounds 0.0 and 1.0, and between them
it is PW5. -/
theorem powCases_mono (hn : isNaN g = false) (hs : sign g = false) (hz : isZero g = false) (h : c ≤ c') :
    powCases fn (norm c) g ≤ powCases fn (norm c') g := by
  by_cases h0 : c = 0#8
  · rw [h0, powCases_norm_zero hn hs hz]
    exact Nat.zero_le _
  by_cases h255' : c' = 255#8
  · rw [h255', norm_255, powCases_one]
    exact powCases_le_one hfn hn hs hz c
  have h255 : c ≠ 255#8 := by bv_omega
  have h0' : c' ≠ 0#8 := by bv_omega
  obtain hg | rfl | rfl := isInnerExponent_or_inf hn hz
  · have hx := isInnerBase_norm h0 h255
    have hx' := isInnerBase_norm h0' h255'
    rw [powCases_inner hx hg, powCases_inner hx' hg]
    simpa [hs] using hfn.pw5 _ _ g hx hx' hg (norm_mono h)
  · rw [powCases_pInf (norm_ne_pZero h0) (norm_ne_one h255), powCases_pInf (norm_ne_pZero h0') (norm_ne_one h255')]
    exact BitVec.le_refl pZero
  · exact absurd hs (by decide)

theorem chanWith_mono (hn : isNaN g = false) (hs : sign g = false) (hz : isZero g = false) (h : c ≤ c') :
    chanWith fn c g ≤ chanWith fn c' g :=
  pack_clamp_mono (powCases_le_one hfn hn hs hz c') (powCases_mono hfn hn hs hz h)

/-- At gamma 1.0 the power is its base: PW1 in the general case. -/
theorem powCases_norm_one (c : Code) : powCases fn (norm c) one = norm c := by
  by_cases h0 : c = 0#8
  · rw [h0, powCases_norm_zero (by decide) (by decide) (by decide), norm_zero]
  by_cases h255 : c = 255#8
  · rw [h255, norm_255, powCases_one]
  have hx := isInnerBase_norm h0 h255
  rw [powCases_inner hx (by decide), hfn.pw1 _ hx]

theorem chanWith_one (c : Code) : chanWith fn c one = c := by
  rw [chanWith, powCases_norm_one hfn, clamp_of_le_one (norm_le_one c), pack_norm]

end

/-- Settles O36. -/
theorem anyPowerUnitKeepsThePortProperties : Obligations.AnyPowerUnitKeepsThePortProperties := by
  intro fn hfn
  refine ⟨chanWith_one hfn, fun _ _ _ hn hs hz h => chanWith_mono hfn hn hs hz h,
    fun c _ hn hg => chanWith_of_sign_or_isZero hfn hn hg c, fun c g hn => ?_,
    fun _ hn hs hz => ⟨chanWith_zero hn hs hz, chanWith_255⟩⟩
  split_ifs with h255
  · rw [h255, chanWith_255]
  · exact chanWith_of_isNaN hn h255

/-! ## The reference -/

theorem chan_eq_chanWith (c : Code) (g : B32) : chan c g = chanWith powFn c g := by
  rw [chan, chanWith, pow_of_isNormalised (isNormalised_norm c)]

theorem chan_mono {c c' : Code} {g : B32} (hn : isNaN g = false) (hs : sign g = false) (hz : isZero g = false)
    (h : c ≤ c') : chan c g ≤ chan c' g := by
  rw [chan_eq_chanWith, chan_eq_chanWith]
  exact chanWith_mono powerProperties_powFn hn hs hz h

theorem chan_of_sign_or_isZero {g : B32} (hn : isNaN g = false) (hg : sign g = true ∨ isZero g = true) (c : Code) :
    chan c g = 255#8 := by
  rw [chan_eq_chanWith, chanWith_of_sign_or_isZero powerProperties_powFn hn hg]

/-- Settles O35: the reference has PW1 to PW5. -/
theorem chanIsMonotoneWithEndPoints : Obligations.ChanIsMonotoneWithEndPoints :=
  ⟨fun c _ _ hn h => ⟨fun hs hz => chan_mono hn hs hz h, fun hg => chan_of_sign_or_isZero hn hg c⟩,
    fun g hn hs hz => ⟨(chan_eq_chanWith 0#8 g).trans (chanWith_zero hn hs hz),
      (chan_eq_chanWith 255#8 g).trans chanWith_255⟩⟩

section
variable {c : Code} (h0 : c ≠ 0#8) (h255 : c ≠ 255#8) {g : B32} (hg : isInnerExponent g = true)
include h0 h255 hg

/-- In the general case with a positive gamma, `CLAMP` has nothing to do. -/
theorem chan_eq_pack_powFn (hs : sign g = false) : chan c g = pack (powFn (norm c) g) := by
  have hx := isInnerBase_norm h0 h255
  rw [chan, pow_eq_powFn hx hg, clamp_of_le_one (powFn_le_one hx hs)]

/-- A larger positive gamma makes an inner code no larger. -/
theorem chan_anti {g' : B32} (hg' : isInnerExponent g' = true) (hs : sign g = false) (hs' : sign g' = false)
    (h : g ≤ g') : chan c g' ≤ chan c g := by
  have hx := isInnerBase_norm h0 h255
  have hval : (val g : ℝ) ≤ val g' := by exact_mod_cast val_le_val hs hs' h
  rw [chan_eq_pack_powFn h0 h255 hg hs, chan_eq_pack_powFn h0 h255 hg' hs']
  exact pack_mono (le_pInf_of_le_one (powFn_le_one hx hs)) (powFn_le_powFn hx hx
    (Real.rpow_le_rpow_of_exponent_ge (val_pos_of_isInnerBase hx) (val_lt_one_of_isInnerBase hx).le hval))

end

/-- Settles O25, row by row; the row of the positive finite gammas is the end points, the general case and the order. -/
theorem chanByClassOfGamma : Obligations.ChanByClassOfGamma := by
  intro c g
  refine ⟨?zero, ?positive, ?posInf, ?negative, ?negInf, ?nan⟩
  case zero =>
    intro hz
    rw [chan, pow_of_isNormalised (isNormalised_norm c), powCases_of_isZero hz, clamp_of_le_one (BitVec.le_refl one),
      pack_one]
  case positive =>
    intro hf hz hs
    have hn := isNaN_of_isFinite hf
    have hg := (isInnerExponent_iff g).mpr ⟨hf, hz⟩
    refine ⟨?_, ?_, fun h0 h255 => ?_, fun c' h => chan_mono hn hs hz h⟩
    · rintro rfl; rw [chan_eq_chanWith, chanWith_zero hn hs hz]
    · rintro rfl; rw [chan_eq_chanWith, chanWith_255]
    · exact ⟨_, isRNE32_powFn (isInnerBase_norm h0 h255) g, chan_eq_pack_powFn h0 h255 hg hs⟩
  case posInf =>
    rintro rfl
    rw [chan_eq_chanWith]
    exact ⟨chanWith_pInf, fun h => by rw [h, chanWith_255]⟩
  case negative =>
    intro hf _ hs
    exact chan_of_sign_or_isZero (isNaN_of_isFinite hf) (.inl hs) c
  case negInf =>
    rintro rfl
    exact chan_of_sign_or_isZero (by decide) (.inl (by decide)) c
  case nan =>
    intro hn
    rw [chan_eq_chanWith]
    exact ⟨chanWith_of_isNaN hn, fun h => by rw [h, chanWith_255]⟩

/-! ## The two limits of the positive row -/

/-- The largest gamma of the lower limit, RNE32 of 5e-9. -/
def tinyGamma : B32 := 0x31ABCC77#32

/-- The smallest gamma of the upper limit, 1590. -/
def largeGamma : B32 := 0x44C6C000#32

/-- The code 1 is the last to reach 255. -/
theorem chan_1_tinyGamma : chan 1#8 tinyGamma = 255#8 := by decide +kernel

/-- The code 254 is the last to reach 0. -/
theorem chan_254_largeGamma : chan 254#8 largeGamma = 0#8 := by decide +kernel

theorem isInnerExponent_of_le {g : B32} (hz : isZero g = false) (h : g ≤ 0x7F7FFFFF#32) :
    isInnerExponent g = true ∧ sign g = false := by
  have hv : g.toNat ≤ 0x7F7FFFFF := h
  have hs : sign g = false := by
    rw [sign_eq, decide_eq_false_iff_not]
    omega
  refine ⟨(isInnerExponent_iff g).mpr ⟨?_, hz⟩, hs⟩
  rw [isFinite_iff, magnitude_of_sign hs]
  omega

/-- Settles O26: the order in the code and the order in the gamma carry both limits to one power each. -/
theorem tinyAndLargeGammas : Obligations.TinyAndLargeGammas := by
  intro c g hz
  constructor
  · intro htiny h0
    obtain ⟨hg, hs⟩ := isInnerExponent_of_le hz (BitVec.le_trans htiny (by decide))
    obtain ⟨hf, -⟩ := (isInnerExponent_iff g).mp hg
    have hgamma : chan 1#8 tinyGamma ≤ chan 1#8 g :=
      chan_anti (by decide) (by decide) hg (by decide) hs (by decide) htiny
    have hcode : chan 1#8 g ≤ chan c g := chan_mono (isNaN_of_isFinite hf) hs hz (by bv_omega)
    rw [chan_1_tinyGamma] at hgamma
    bv_omega
  · intro hlarge hmax h255
    obtain ⟨hg, hs⟩ := isInnerExponent_of_le hz hmax
    obtain ⟨hf, -⟩ := (isInnerExponent_iff g).mp hg
    have hgamma : chan 254#8 g ≤ chan 254#8 largeGamma :=
      chan_anti (by decide) (by decide) (by decide) hg (by decide) hs hlarge
    have hcode : chan c g ≤ chan 254#8 g := chan_mono (isNaN_of_isFinite hf) hs hz (by bv_omega)
    rw [chan_254_largeGamma] at hgamma
    bv_omega

/-! ## Whole pixels -/

/-- Settles O34: lane by lane, alpha by `alphaLane` and the colours at gamma 1.0 by `chan`. -/
theorem alphaInvarianceAndIdentity : Obligations.AlphaInvarianceAndIdentity := by
  have hone : ∀ p : Word, applyPixel p one = p := fun p => by
    rw [applyPixel_eq_packPixel, chan_one, chan_one, chan_one, alphaLane, pack_norm, packPixel_codes]
  refine ⟨fun p g => ?_, hone, fun p => by rw [hone, hone]⟩
  show alphaOf (applyPixel p g) = alphaOf p
  rw [applyPixel_eq_packPixel, alphaOf_packPixel, alphaLane, pack_norm]

end Sys2Proof.Machine
end
